-- ==== Sys2Proof/Word.lean ====
section
/-! DEFINITION. The two word types of CORE: a byte is 8 bits and a word is 16 bits (spec R12). -/

namespace Sys2Proof

/-- A byte: a register, a memory cell, an opcode, an operand byte (R10, R12). -/
abbrev Byte := BitVec 8

/-- A word: an address, the program counter, an absolute operand (R10, R12). -/
abbrev Word := BitVec 16

end Sys2Proof
end

