-- ==== Sys2Proof/Machine/Alu.lean ====
section
/-! DEFINITION. The sub-block `alu_core` (R140 to R145, R148): the pure arithmetic of CORE, every function total, without state
and without a cycle of its own (R149, R150). R146 and R147, the flag detectors, are in Machine/Flags.lean. -/

namespace Sys2Proof.Machine

/-- `inc16` (R140): plus one, modulo 65536. -/
def inc16 (p : Word) : Word := p + 1

/-- `dec16` (R141): minus one, modulo 65536. -/
def dec16 (p : Word) : Word := p - 1

/-- `hi(w) = w[15:8]` (R144). -/
def hi (w : Word) : Byte := w.extractLsb' 8 8

/-- `lo(w) = w[7:0]` (R144). -/
def lo (w : Word) : Byte := w.extractLsb' 0 8

/-- `{h, l} = h * 256 + l` (R12, R144). -/
def join (h l : Byte) : Word := h ++ l

/-- `zext_16(b) = {0x00, b}`, the only extension CORE performs (R15). -/
def zext16 (b : Byte) : Word := join 0 b

/-- `zpindex` (R142): 8-bit index add, the carry dropped. -/
def zpindex (b r : Byte) : Byte := b + r

/-- `absindex` (R143): 16-bit add of an unsigned 8-bit index, modulo 65536. -/
def absindex (w : Word) (r : Byte) : Word := w + zext16 r

/-- `pagecross` (R145): the high bytes of base and effective address differ. -/
def pagecross (base ea : Word) : Bool := decide (hi base ≠ hi ea)

/-- `spadvance` (R148): the stored byte of SP plus 2, modulo 256. -/
def spadvance (s : Byte) : Byte := s + 2

end Sys2Proof.Machine
end

