-- ==== Sys2Proof/Config.lean ====
section
/-! DEFINITION. The named parameters of the model (spec R11), their defaults, and the opcode bytes they give.
A claim is about every value of a parameter unless it says otherwise: the machine carries its parameters in `State.cfg`. -/

namespace Sys2Proof

/-- The parameters of R11, plain data. `CYCW` has no field: the cycle counter is a mathematical integer (log 6).
`MEM0` has no field: it is whatever `State.mem` holds when an `execute` starts (log 9). -/
structure Config where
  /-- `B_POWERON`, the value of flag B after power-on; free in the spec (R54, D4). -/
  bPowerOn : Bool
  /-- `SP_PAGE_WRAP`: SP's high byte is hard-wired to 0x01 (R38, D5). -/
  spPageWrap : Bool
  /-- `RESET_CLEARS_MEMORY`: reset zero-fills memory; OPEN in the spec (R261, D7). -/
  resetClearsMemory : Bool
  /-- `OPC_LDA_ZP` (R106 row 2, D8). -/
  opcLdaZp : Byte
  /-- `OPC_LDA_ZPX` (R106 row 3, D8). -/
  opcLdaZpX : Byte
  /-- `OPC_LDA_ZPY`, an optional byte: with `none` no byte decodes to LDA zero-page,Y (R108, D9). -/
  opcLdaZpY : Option Byte
  /-- `OPC_LDA_ABS` (R106 row 5, D8). -/
  opcLdaAbs : Byte
  /-- `OPC_LDA_ABSY` (R106 row 7, D8). -/
  opcLdaAbsY : Byte
  /-- `OPC_JSR` (R106 row 8, D8). -/
  opcJsr : Byte
deriving DecidableEq, Repr

namespace Config

/-- The opcode byte of load-accumulator immediate, fixed by the source (R106 row 1). -/
def opcLdaImm : Byte := 0xA9

/-- The opcode byte of load-accumulator absolute,X, fixed by the source (R106 row 6). -/
def opcLdaAbsX : Byte := 0xBD

/-- The defaults of R11. The five bytes are the MOS 6502's: PRESUMED, unsafe (log 4).
`bPowerOn = false` and `resetClearsMemory = false` are DESIGN CHOICES where the spec gives no default (log 2, log 8). -/
def standard : Config where
  bPowerOn := false
  spPageWrap := true
  resetClearsMemory := false
  opcLdaZp := 0xA5
  opcLdaZpX := 0xB5
  opcLdaZpY := none
  opcLdaAbs := 0xAD
  opcLdaAbsY := 0xB9
  opcJsr := 0x20

/-- The opcode bytes that name an instruction, in the order of R106. -/
def opcodeBytes (cfg : Config) : List Byte :=
  [opcLdaImm, cfg.opcLdaZp, cfg.opcLdaZpX] ++ cfg.opcLdaZpY.toList ++
    [cfg.opcLdaAbs, opcLdaAbsX, cfg.opcLdaAbsY, cfg.opcJsr]

/-- "The parameter bytes must be pairwise distinct and distinct from 0xA9 and 0xBD" (R11). -/
def wf (cfg : Config) : Bool := decide cfg.opcodeBytes.Nodup

end Config

end Sys2Proof
end

