-- ==== Sys2Proof/Machine/State.lean ====
section
/-! DEFINITION. The state of CORE and its attached memory as plain data (R30, R51, R70), its reset value (R54), and the
reasons a step or a host operation can stop. -/

namespace Sys2Proof.Machine

/-- The engine status of R51: `poweron` until the first reset, `idle` after it. A call in progress is not visible (R51, R189). -/
inductive Status where
  | poweron
  | idle
deriving DecidableEq, Repr

/-- Memory: the listed (address, byte) cells; every address not listed reads as `unlistedByte` (R70). -/
abbrev Memory := List Host.Cell

/-- What an unlisted address reads as: memory is "zero-initialized on construction" (R73; log 9). -/
def unlistedByte : Byte := 0

/-- Memory is in canonical form from address `low` on: addresses rise strictly, lie inside the 65,536 bytes (R70), and no
listed byte equals what an unlisted address reads as. -/
def Memory.wfFrom : Nat → Memory → Bool
  | _, [] => true
  | low, (k, v) :: rest =>
    decide (low ≤ k) && decide (k < 65536) && decide (v ≠ unlistedByte) && Memory.wfFrom (k + 1) rest

/-- The canonical form of memory: equal contents are equal data. -/
def Memory.wf (m : Memory) : Bool := Memory.wfFrom 0 m

/-- The complete state (R30, R46, R50, R51, R70), with the parameters of R11 in `cfg`. Inventory: INVENTORY.md, '## State'. -/
@[ext]
structure State where
  /-- PC (R35). -/
  pc : Word
  /-- S, the stored low byte of SP (R38). -/
  sLow : Byte
  /-- The high byte of SP, read and written only under `SP_PAGE_WRAP = false` (R38, log 7). -/
  spHigh : Byte
  /-- A, the accumulator (R31). -/
  a : Byte
  /-- X, index register (R32). -/
  x : Byte
  /-- Y, index register (R33). -/
  y : Byte
  /-- C, carry (R40). -/
  c : Bool
  /-- Z, zero (R40). -/
  z : Bool
  /-- I, interrupt-disable (R40); it masks nothing (R233). -/
  i : Bool
  /-- D, decimal (R40); it changes nothing (R41). -/
  d : Bool
  /-- B, break (R40). -/
  b : Bool
  /-- V, overflow (R40). -/
  v : Bool
  /-- N, negative (R40). -/
  n : Bool
  /-- The remaining cycle budget, a signed integer (R46). -/
  cyc : Int
  /-- The argument of the current or last `execute` (R46). -/
  budget : Int
  /-- The unknown-opcode bytes of the current or last `execute`, in fetch order (R50). -/
  diag : List Byte
  /-- The engine status (R51). -/
  status : Status
  /-- The attached memory (R70). -/
  mem : Memory
  /-- The parameters of R11; nothing writes them (log 1). -/
  cfg : Config
deriving DecidableEq, Repr

/-- Reasons a step stops with a fault: there are none. "CORE raises no synchronous exception" (R230), and nothing in the spec is
treated as a fault or as stuck (93_implementation_defined.md). -/
inductive Fault where
deriving DecidableEq, Repr

/-- Reasons for a refusal. -/
inductive Refusal where
  /-- An instruction without a meaning; raised by an arm of `exec` only. Safe. No arm raises it. -/
  | notModelled (mnemonic : String)
  /-- `execute`, or a step of it, before the first reset; raised by `step` and `execute` in status `poweron` (R55, R231, D20). Safe. -/
  | executeBeforeReset
  /-- A register preload before the first reset, a host move R52 does not give; raised by `preload` (log 13). Safe. -/
  | preloadBeforeReset
deriving DecidableEq, Repr

/-- The machine at power-on under given parameters: status `poweron`, memory zero (R55, R73). The registers are placeholders no
operation reads: `step`, `execute` and `preload` refuse, and reset overwrites all of them but B (log 12). -/
def State.powerOn (cfg : Config) : State where
  pc := 0
  sLow := 0
  spHigh := 0
  a := 0
  x := 0
  y := 0
  c := false
  z := false
  i := false
  d := false
  b := cfg.bPowerOn
  v := false
  n := false
  cyc := 0
  budget := 0
  diag := []
  status := .poweron
  mem := []
  cfg := cfg

/-- The machine right after the first reset under given parameters (R54, R260). B is `B_POWERON`, which reset does not write;
`cyc`, `budget` and `diag` are not written by reset and hold the values of log 3. -/
def State.resetWith (cfg : Config) : State where
  pc := 0xFFFC
  sLow := 0x00
  spHigh := 0x01
  a := 0x00
  x := 0x00
  y := 0x00
  c := false
  z := false
  i := false
  d := false
  b := cfg.bPowerOn
  v := false
  n := false
  cyc := 0
  budget := 0
  diag := []
  status := .idle
  mem := []
  cfg := cfg

/-- The machine right after reset with the default parameters (R54). -/
def State.reset : State := State.resetWith Config.standard

end Sys2Proof.Machine
end

