-- ==== Sys2Proof/Machine/Ops.lean ====
section
/-! DEFINITION. The shared operations over memory, the stack pointer, the cycle counter and the diagnostic stream (R16, R38, R47,
R71, R74, R75, R186). CORE has no exception entry and no return from one (R230, R235, R236): `report` is its one abnormal path. -/

namespace Sys2Proof.Machine

/-- The byte at a key, `unlistedByte` where none is listed. -/
def Memory.read : Memory → Nat → Byte
  | [], _ => unlistedByte
  | (k, v) :: rest, n => if k = n then v else Memory.read rest n

/-- Remove every cell at a key. -/
def Memory.erase : Memory → Nat → Memory
  | [], _ => []
  | (k, v) :: rest, n => if k = n then Memory.erase rest n else (k, v) :: Memory.erase rest n

/-- Put a cell before the first cell of a higher address. -/
def Memory.insert : Memory → Nat → Byte → Memory
  | [], n, w => [(n, w)]
  | (k, v) :: rest, n, w => if n < k then (n, w) :: (k, v) :: rest else (k, v) :: Memory.insert rest n w

/-- Store a byte at a key, keeping the canonical form: the value an unlisted address reads as is not listed. -/
def Memory.write (m : Memory) (n : Nat) (w : Byte) : Memory :=
  if w = unlistedByte then m.erase n else (m.erase n).insert n w

/-- `MemRead(a, 1)`: the raw port read, which cannot fail and charges nothing (R16, R71). -/
def memRead (a : Word) (s : State) : Byte := s.mem.read a.toNat

/-- `MemWrite(a, 1, w)`: the raw port write, which cannot fail and charges nothing (R16, R71). -/
def memWrite (a : Word) (w : Byte) (s : State) : State := { s with mem := s.mem.write a.toNat w }

/-- `Charge(k)` (R47): `cyc <- cyc - k`, never failing and never saturating. -/
def charge (k : Nat) (s : State) : State := { s with cyc := s.cyc - (k : Int) }

/-- `ReadByte(a)` (R74): the data read of a load, one cycle. -/
def readByte (a : Word) (s : State) : Byte × State := (memRead a s, charge 1 s)

/-- `WriteWord(a, w)` (R75): low byte at `a`, high byte at `a + 1` modulo 65536, two cycles. -/
def writeWord (a w : Word) (s : State) : State :=
  charge 2 (memWrite (inc16 a) (hi w) (memWrite a (lo w) s))

/-- The 16-bit value of SP at a read (R38): `{0x01, S}`, or all 16 stored bits under `SP_PAGE_WRAP = false`. -/
def State.sp (s : State) : Word :=
  if s.cfg.spPageWrap then join 0x01 s.sLow else join s.spHigh s.sLow

/-- A write of a 16-bit value to SP (R38): the high byte is dropped, or stored under `SP_PAGE_WRAP = false`. -/
def State.setSp (w : Word) (s : State) : State :=
  if s.cfg.spPageWrap then { s with sLow := lo w } else { s with sLow := lo w, spHigh := hi w }

/-- SP advances by 2 (R148): `S <- spadvance(S)`, or the 16-bit `(SP + 2) mod 65536` under `SP_PAGE_WRAP = false`. -/
def advanceSp (s : State) : State :=
  if s.cfg.spPageWrap then { s with sLow := spadvance s.sLow } else s.setSp (s.sp + 2)

/-- Overwrite PC; JSR is the only user (R36, R132). -/
def State.setPc (w : Word) (s : State) : State := { s with pc := w }

/-- `Report(op)` (R186): append the byte to `diag`; no cycle, nothing else. -/
def report (op : Byte) (s : State) : State := { s with diag := s.diag ++ [op] }

/-- Write bytes at consecutive addresses from `a` on, modulo 65536: the host's load of a program (R91, R265). -/
def loadBytes : Word → List Byte → State → State
  | _, [], s => s
  | a, v :: rest, s => loadBytes (inc16 a) rest (memWrite a v s)

end Sys2Proof.Machine
end

