-- ==== Sys2Proof/Machine/JumpSubroutine.lean ====
section
/-! DEFINITION. Jump-to-subroutine (R220, R221), the only instruction that overwrites PC and the only one that writes memory. -/

namespace Sys2Proof.Machine

/-- JSR once its target has been fetched (R220): the word PC - 1 goes to the old SP, then PC, SP and the internal cycle. -/
def callSubroutine (w : Word) (s : State) : State :=
  charge 1 (advanceSp ((writeWord s.sp (dec16 s.pc) s).setPc w))

/-- `JSR w` (R220), entered after its three bytes have been fetched. -/
def execJsr (w : Word) (s : State) : Host.Outcome State Fault Refusal := .next (callSubroutine w s)

end Sys2Proof.Machine
end

