-- ==== Sys2Proof/Machine/Flags.lean ====
section
/-! DEFINITION. The flag computations of CORE, all there are: Z and N of a loaded byte (R146, R147, R200). C and V are produced by
no function in scope (R149), and no other flag is written by an instruction (R41). -/

namespace Sys2Proof.Machine

/-- `iszero(v)` (R146). -/
def iszero (v : Byte) : Bool := decide (v = 0x00)

/-- `isneg(v) = v[7]` (R147). -/
def isneg (v : Byte) : Bool := v.getLsbD 7

/-- The end of every load (R200): `A <- v; Z <- iszero(v); N <- isneg(v)`, no other flag touched. -/
def loadAccumulator (v : Byte) (s : State) : State := { s with a := v, z := iszero v, n := isneg v }

end Sys2Proof.Machine
end

