-- ==== Sys2Proof/Syntax.lean ====
section
/-! DEFINITION. The syntax of CORE: addressing modes, instruction formats, the decoder's verdict on an opcode byte, and
one constructor of `Instr` for every row of spec/opcode_table.json, the default row (the unknown opcode) among them. -/

namespace Sys2Proof

/-- The seven addressing modes, all there are (R105, R168). -/
inductive Mode where
  | imm
  | zp
  | zpx
  | zpy
  | abs
  | absx
  | absy
deriving DecidableEq, Repr

/-- What the decoder makes of an opcode byte: an operation with its mode, or unknown (R105). JSR's mode is always ABS. -/
inductive Opcode where
  | lda (m : Mode)
  | jsr
  | unknown
deriving DecidableEq, Repr

/-- The three instruction formats of R100: one, two and three bytes. -/
inductive Format where
  | op
  | opB
  | opW
deriving DecidableEq, Repr

/-- The instructions of R106 and the unknown opcode of R185, with their operands as R104 assembles them. -/
inductive Instr where
  /-- `LDA #b`, load-accumulator immediate (R201). -/
  | ldaImm (b : Byte)
  /-- `LDA z`, load-accumulator zero-page (R202). -/
  | ldaZp (z : Byte)
  /-- `LDA z,X`, load-accumulator zero-page,X (R203). -/
  | ldaZpX (z : Byte)
  /-- `LDA z,Y`, load-accumulator zero-page,Y (R204). -/
  | ldaZpY (z : Byte)
  /-- `LDA w`, load-accumulator absolute (R205). -/
  | ldaAbs (w : Word)
  /-- `LDA w,X`, load-accumulator absolute,X (R206). -/
  | ldaAbsX (w : Word)
  /-- `LDA w,Y`, load-accumulator absolute,Y (R207). -/
  | ldaAbsY (w : Word)
  /-- `JSR w`, jump-to-subroutine (R220). -/
  | jsr (w : Word)
  /-- The unknown opcode: any byte R106 does not assign (R110, R185). -/
  | unknown (op : Byte)
deriving DecidableEq, Repr

/-- The format each decoded opcode uses (R100, R102): an unknown opcode takes no operand byte. -/
def Opcode.format : Opcode → Format
  | .lda .imm => .opB
  | .lda .zp => .opB
  | .lda .zpx => .opB
  | .lda .zpy => .opB
  | .lda .abs => .opW
  | .lda .absx => .opW
  | .lda .absy => .opW
  | .jsr => .opW
  | .unknown => .op

/-- Length in bytes of each format (R100). -/
def Format.length : Format → Nat
  | .op => 1
  | .opB => 2
  | .opW => 3

/-- The opcode an instruction was decoded from. -/
def Instr.opcode : Instr → Opcode
  | .ldaImm _ => .lda .imm
  | .ldaZp _ => .lda .zp
  | .ldaZpX _ => .lda .zpx
  | .ldaZpY _ => .lda .zpy
  | .ldaAbs _ => .lda .abs
  | .ldaAbsX _ => .lda .absx
  | .ldaAbsY _ => .lda .absy
  | .jsr _ => .jsr
  | .unknown _ => .unknown

/-- Length of an instruction in bytes (R100, R102). -/
def Instr.length (i : Instr) : Nat := i.opcode.format.length

end Sys2Proof
end

