-- ==== Sys2Proof/WellFormed.lean ====
section
/-! DEFINITION. Which instructions a configuration can encode: LDA zero-page,Y needs its optional opcode byte (R108), and
an unknown opcode is a byte that names no instruction (R110). Every operand value of every other form is legal (R104). -/

namespace Sys2Proof

/-- Well-formedness of an instruction under a configuration. -/
def Instr.wf (cfg : Config) : Instr → Bool
  | .ldaImm _ => true
  | .ldaZp _ => true
  | .ldaZpX _ => true
  | .ldaZpY _ => cfg.opcLdaZpY.isSome
  | .ldaAbs _ => true
  | .ldaAbsX _ => true
  | .ldaAbsY _ => true
  | .jsr _ => true
  | .unknown op => decide (op ∉ cfg.opcodeBytes)

end Sys2Proof
end

