-- ==== Sys2Proof/Decode.lean ====
section
/-! DEFINITION. The opcode decoder (R100 to R112), total on any list of bytes, and the encoder.
Every byte value is an opcode or the unknown opcode, so the only rejections are of byte lists that end too early. -/

namespace Sys2Proof

/-- The opcode map of R106, one entry per row; the row of LDA zero-page,Y is there only if its byte is given (R108). -/
def opcodeMap (cfg : Config) : List (Byte × Opcode) :=
  [(Config.opcLdaImm, .lda .imm), (cfg.opcLdaZp, .lda .zp), (cfg.opcLdaZpX, .lda .zpx)] ++
    cfg.opcLdaZpY.toList.map (fun q => (q, .lda .zpy)) ++
    [(cfg.opcLdaAbs, .lda .abs), (Config.opcLdaAbsX, .lda .absx), (cfg.opcLdaAbsY, .lda .absy),
      (cfg.opcJsr, .jsr)]

/-- Compare an opcode byte, all 8 bits (R101), with the rows of a map; a byte no row has is unknown (R110). -/
def lookupOpcode : List (Byte × Opcode) → Byte → Opcode
  | [], _ => .unknown
  | (k, o) :: rows, op => if op = k then o else lookupOpcode rows op

/-- `decode : byte -> (operation, mode) | unknown` (R105). No register and no flag influences it (R103). -/
def decodeOpcode (cfg : Config) (op : Byte) : Opcode := lookupOpcode (opcodeMap cfg) op

/-- The instruction of a decoded opcode, its opcode byte and its operand; a one-byte operand is the operand's low byte (R104). -/
def assemble (o : Opcode) (op : Byte) (operand : Word) : Instr :=
  match o with
  | .lda .imm => .ldaImm (Machine.lo operand)
  | .lda .zp => .ldaZp (Machine.lo operand)
  | .lda .zpx => .ldaZpX (Machine.lo operand)
  | .lda .zpy => .ldaZpY (Machine.lo operand)
  | .lda .abs => .ldaAbs operand
  | .lda .absx => .ldaAbsX operand
  | .lda .absy => .ldaAbsY operand
  | .jsr => .jsr operand
  | .unknown => .unknown op

/-- Why a list of bytes is no instruction: it is too short. Memory always has the next byte, so the machine never sees this. -/
inductive DecodeError where
  /-- There is no opcode byte. -/
  | noOpcode
  /-- The operand bytes of this opcode are not all there. -/
  | missingOperand (op : Byte)
deriving DecidableEq, Repr

/-- Operand bytes of a format taken off a list, low byte first (R100, R104). -/
def takeOperand : Format → List Byte → Option (Word × List Byte)
  | .op, bs => some (0, bs)
  | .opB, b :: bs => some (Machine.zext16 b, bs)
  | .opW, l :: h :: bs => some (Machine.join h l, bs)
  | .opB, [] => none
  | .opW, [] => none
  | .opW, [_] => none

/-- The instruction at the front of a list of bytes, and the bytes after it. -/
def decode (cfg : Config) : List Byte → Except DecodeError (Instr × List Byte)
  | [] => .error .noOpcode
  | op :: bs =>
    match takeOperand (decodeOpcode cfg op).format bs with
    | some (w, rest) => .ok (assemble (decodeOpcode cfg op) op w, rest)
    | none => .error (.missingOperand op)

/-- The bytes of an instruction (R106, R113), in fetch order; none for LDA zero-page,Y when its opcode byte is not given (R108). -/
def encode (cfg : Config) : Instr → Option (List Byte)
  | .ldaImm b => some [Config.opcLdaImm, b]
  | .ldaZp z => some [cfg.opcLdaZp, z]
  | .ldaZpX z => some [cfg.opcLdaZpX, z]
  | .ldaZpY z => cfg.opcLdaZpY.map fun q => [q, z]
  | .ldaAbs w => some [cfg.opcLdaAbs, Machine.lo w, Machine.hi w]
  | .ldaAbsX w => some [Config.opcLdaAbsX, Machine.lo w, Machine.hi w]
  | .ldaAbsY w => some [cfg.opcLdaAbsY, Machine.lo w, Machine.hi w]
  | .jsr w => some [cfg.opcJsr, Machine.lo w, Machine.hi w]
  | .unknown op => some [op]

/-- The three bytes of a table word, first byte first: bits 7..0, 15..8, 23..16, the bits from nbits up being 0. -/
def tableBytes (nbits w : Nat) : List Byte :=
  let v := w % 2 ^ nbits
  [BitVec.ofNat 8 v, BitVec.ofNat 8 (v / 256), BitVec.ofNat 8 (v / 65536)]

/-- The instruction the decoder reads, under the default parameters, from a word numbered as spec/opcode_table.json numbers it. -/
def decodeTableWord (nbits w : Nat) : Option Instr :=
  match decode Config.standard (tableBytes nbits w) with
  | .ok (i, _) => some i
  | .error _ => none

end Sys2Proof
end

