-- ==== Sys2Proof/Machine/Fetch.lean ====
section
/-! DEFINITION. The sub-block `6502_fetch_unit` (R130 to R134): every byte of every instruction comes through `fetchByte`, at one
cycle a byte, and the fetch unit keeps no state of its own. -/

namespace Sys2Proof.Machine

/-- `FetchByte()` (R130): the byte at the old PC; PC advances by one modulo 65536; one cycle. -/
def fetchByte (s : State) : Byte × State := (memRead s.pc s, charge 1 (s.setPc (inc16 s.pc)))

/-- `FetchWord()` (R131): two byte fetches, low byte first. -/
def fetchWord (s : State) : Word × State :=
  let l := fetchByte s
  let h := fetchByte l.2
  (join h.1 l.1, h.2)

/-- Fetch the operand bytes of a format (R100, R134). -/
def fetchOperand (f : Format) (s : State) : Word × State :=
  match f with
  | .op => (0, s)
  | .opB => (zext16 (fetchByte s).1, (fetchByte s).2)
  | .opW => fetchWord s

/-- Fetch one whole instruction: opcode fetch, decode, operand fetch (R102, R134, R184). Decoding is free (R192). -/
def fetchInstr (s : State) : Instr × State :=
  let f := fetchByte s
  let o := decodeOpcode s.cfg f.1
  let w := fetchOperand o.format f.2
  (assemble o f.1 w.1, w.2)

end Sys2Proof.Machine
end

