-- ==== Sys2Proof/Machine/Operands.lean ====
section
/-! DEFINITION. The sub-block `addressing_mode_resolver` (R160 to R170): the index steps with their charges, the spec's own
`Resolve(mode)`, which fetches its operand bytes itself, and `OperandValue`. -/

namespace Sys2Proof.Machine

/-- The result of `Resolve` (R160). -/
inductive Operand where
  | immediate
  | address (a : Word)
deriving DecidableEq, Repr

/-- The index step of the zero-page,X and zero-page,Y modes (R163, R164): wrap inside the zero page, always one cycle. -/
def indexZeroPage (z r : Byte) (s : State) : Word × State := (zext16 (zpindex z r), charge 1 s)

/-- One cycle if the effective address lies in another page than the base (R145, R166, R167). -/
def chargeCross (base ea : Word) (s : State) : State := if pagecross base ea then charge 1 s else s

/-- The index step of the absolute,X and absolute,Y modes (R166, R167): one cycle on a page crossing only. -/
def indexAbsolute (base : Word) (r : Byte) (s : State) : Word × State :=
  (absindex base r, chargeCross base (absindex base r) s)

/-- `Resolve(mode)` (R161 to R167), entered with PC at the first operand byte. -/
def resolve (m : Mode) (s : State) : Operand × State :=
  match m with
  | .imm => (.immediate, s)
  | .zp =>
    let f := fetchByte s
    (.address (zext16 f.1), f.2)
  | .zpx =>
    let f := fetchByte s
    let e := indexZeroPage f.1 f.2.x f.2
    (.address e.1, e.2)
  | .zpy =>
    let f := fetchByte s
    let e := indexZeroPage f.1 f.2.y f.2
    (.address e.1, e.2)
  | .abs =>
    let f := fetchWord s
    (.address f.1, f.2)
  | .absx =>
    let f := fetchWord s
    let e := indexAbsolute f.1 f.2.x f.2
    (.address e.1, e.2)
  | .absy =>
    let f := fetchWord s
    let e := indexAbsolute f.1 f.2.y f.2
    (.address e.1, e.2)

/-- `OperandValue(op)` (R169): the byte to load; either branch charges exactly 1. -/
def operandValue (o : Operand) (s : State) : Byte × State :=
  match o with
  | .immediate => fetchByte s
  | .address a => readByte a s

end Sys2Proof.Machine
end

