-- ==== Sys2Proof/Machine/LoadAccumulator.lean ====
section
/-! DEFINITION. The load-accumulator family (R200 to R207). A meaning is entered after the instruction's bytes have been fetched:
PC is past the instruction and one cycle a byte has been charged (log 11). -/

namespace Sys2Proof.Machine

/-- The data read and the load of the six non-immediate modes (R169, R200). -/
def loadFrom (a : Word) (s : State) : State := loadAccumulator (readByte a s).1 (readByte a s).2

/-- `LDA #b` (R201). -/
def execLdaImm (b : Byte) (s : State) : Host.Outcome State Fault Refusal :=
  .next (loadAccumulator b s)

/-- `LDA z` (R202). -/
def execLdaZp (z : Byte) (s : State) : Host.Outcome State Fault Refusal :=
  .next (loadFrom (zext16 z) s)

/-- `LDA z,X` (R203). -/
def execLdaZpX (z : Byte) (s : State) : Host.Outcome State Fault Refusal :=
  let e := indexZeroPage z s.x s
  .next (loadFrom e.1 e.2)

/-- `LDA z,Y` (R204). -/
def execLdaZpY (z : Byte) (s : State) : Host.Outcome State Fault Refusal :=
  let e := indexZeroPage z s.y s
  .next (loadFrom e.1 e.2)

/-- `LDA w` (R205). -/
def execLdaAbs (w : Word) (s : State) : Host.Outcome State Fault Refusal :=
  .next (loadFrom w s)

/-- `LDA w,X` (R206). -/
def execLdaAbsX (w : Word) (s : State) : Host.Outcome State Fault Refusal :=
  let e := indexAbsolute w s.x s
  .next (loadFrom e.1 e.2)

/-- `LDA w,Y` (R207). -/
def execLdaAbsY (w : Word) (s : State) : Host.Outcome State Fault Refusal :=
  let e := indexAbsolute w s.y s
  .next (loadFrom e.1 e.2)

end Sys2Proof.Machine
end

