-- ==== Sys2Proof/Machine/UnknownOpcode.lean ====
section
/-! DEFINITION. The unknown opcode (R110, R185): reported, one cycle and one byte in all (both of the opcode fetch), nothing else. -/

namespace Sys2Proof.Machine

/-- The unknown opcode, entered after its byte has been fetched (R185): `Report(op)`. -/
def execUnknown (op : Byte) (s : State) : Host.Outcome State Fault Refusal := .next (report op s)

end Sys2Proof.Machine
end

