-- ==== Sys2Proof/Machine/Dispatch.lean ====
section
/-! DEFINITION. The dispatch of an instruction to its meaning (R184), one arm per constructor. -/

namespace Sys2Proof.Machine

/-- Run an instruction whose bytes have been fetched. -/
def exec (i : Instr) (s : State) : Host.Outcome State Fault Refusal :=
  match i with
  | .ldaImm b => Sys2Proof.Machine.execLdaImm b s
  | .ldaZp z => Sys2Proof.Machine.execLdaZp z s
  | .ldaZpX z => Sys2Proof.Machine.execLdaZpX z s
  | .ldaZpY z => Sys2Proof.Machine.execLdaZpY z s
  | .ldaAbs w => Sys2Proof.Machine.execLdaAbs w s
  | .ldaAbsX w => Sys2Proof.Machine.execLdaAbsX w s
  | .ldaAbsY w => Sys2Proof.Machine.execLdaAbsY w s
  | .jsr w => Sys2Proof.Machine.execJsr w s
  | .unknown op => Sys2Proof.Machine.execUnknown op s

end Sys2Proof.Machine
end

