-- ==== Sys2Proof/Machine/Step.lean ====
section
/-! DEFINITION. One step of CORE: exactly one instruction, `Step()` of R184. The budget test belongs to `execute` (R180,
Machine/Execute.lean); `Step` itself "is a total function of the state: it is defined for ... every `cyc`" (R184; log 10). -/

namespace Sys2Proof.Machine

/-- Fetch one instruction and run it (R184). Before the first reset the registers hold no value and the step is refused (R55, log 12). -/
def step (s : State) : Host.Outcome State Fault Refusal :=
  match s.status with
  | .poweron => .refused .executeBeforeReset
  | .idle => exec (fetchInstr s).1 (fetchInstr s).2

/-- `s` with the instruction of a table word stored at PC, where the next step fetches. It stands for the host's load of a
program (R91, R265; log 10). It changes memory only: status and parameters are those of `s`. -/
def State.withFetchWord (s : State) (nbits w : Nat) : State := loadBytes s.pc (tableBytes nbits w) s

end Sys2Proof.Machine
end

