-- ==== Sys2Proof/Machine/Engine.lean ====
section
/-! DEFINITION. The spec's own pseudocode of one instruction, clause by clause: `ExecLDA` (R200), `ExecJSR` (R220) and `Step`
(R184), in which the addressing-mode resolver fetches its operand bytes itself. The machine's `step` fetches and decodes the whole
instruction first; an obligation states that the two are the same function. -/

namespace Sys2Proof.Machine

/-- `ExecLDA(m)` (R200), entered after the opcode fetch. -/
def engineLda (m : Mode) (s : State) : State :=
  let o := resolve m s
  let v := operandValue o.1 o.2
  loadAccumulator v.1 v.2

/-- `ExecJSR()` (R220), entered after the opcode fetch. -/
def engineJsr (s : State) : State :=
  let w := fetchWord s
  let r := dec16 w.2.pc
  let t := writeWord w.2.sp r w.2
  charge 1 (advanceSp (t.setPc w.1))

/-- `Step()` (R184). -/
def engineStep (s : State) : State :=
  let f := fetchByte s
  match decodeOpcode f.2.cfg f.1 with
  | .lda m => engineLda m f.2
  | .jsr => engineJsr f.2
  | .unknown => report f.1 f.2

end Sys2Proof.Machine
end

