-- ==== Sys2Proof/Machine/Execute.lean ====
section
/-! DEFINITION. The host request `execute(budget)` (R180 to R183): the loop that runs whole instructions while the remaining
budget is above zero, tested at instruction boundaries only. -/

namespace Sys2Proof.Machine

/-- The start of an `execute` (R180): `budget` and `cyc` are loaded and `diag` is emptied. -/
def beginExecute (k : Int) (s : State) : State := { s with budget := k, cyc := k, diag := [] }

/-- The loop of R180, for at most `fuel` instructions. Every instruction charges at least one cycle, so the budget is fuel
enough (R187). -/
def runLoop : Nat → State → Host.Outcome State Fault Refusal
  | 0, s => .next s
  | fuel + 1, s =>
    if 0 < s.cyc then
      match step s with
      | .next t => runLoop fuel t
      | .fault r => .fault r
      | .refused r => .refused r
    else .next s

/-- `execute(k)` (R180), for every integer budget (R181); refused before the first reset (R55, R231). Its results are the next
state's `cyclesConsumed` and `diag` (R183). -/
def execute (k : Int) (s : State) : Host.Outcome State Fault Refusal :=
  match s.status with
  | .poweron => .refused .executeBeforeReset
  | .idle => runLoop k.toNat (beginExecute k s)

/-- `cycles_consumed = budget - cyc` (R48, R183). -/
def State.cyclesConsumed (s : State) : Int := s.budget - s.cyc

end Sys2Proof.Machine
end

