-- ==== Sys2Proof/Machine/HostPort.lean ====
section
/-! DEFINITION. The host's other moves, all made while no call is in progress (R3, R53): `reset` (R260), register preload (R52) and
the zero-fill of memory (R73). Byte writes and program loads are `memWrite` and `loadBytes` of Machine/Ops.lean (R91). -/

namespace Sys2Proof.Machine

/-- `reset(memory)` (R260, R261): it does not write B, `cyc`, `budget` or `diag`; memory is left alone unless the OPEN parameter
`RESET_CLEARS_MEMORY` is set (log 8). It may be requested in either status and always succeeds (R262). -/
def hostReset (s : State) : State :=
  { s with
    pc := 0xFFFC, sLow := 0x00, spHigh := 0x01, a := 0x00, x := 0x00, y := 0x00
    c := false, z := false, i := false, d := false, v := false, n := false
    status := .idle
    mem := if s.cfg.resetClearsMemory then [] else s.mem }

/-- A register the host may preload, and its value (R52). -/
inductive Preload where
  | pc (w : Word)
  | sp (w : Word)
  | a (r : Byte)
  | x (r : Byte)
  | y (r : Byte)
  | c (f : Bool)
  | z (f : Bool)
  | i (f : Bool)
  | d (f : Bool)
  | b (f : Bool)
  | v (f : Bool)
  | n (f : Bool)
deriving DecidableEq, Repr

/-- The register write of a preload; SP stores its low byte (R38, R52). -/
def Preload.apply (p : Preload) (s : State) : State :=
  match p with
  | .pc w => { s with pc := w }
  | .sp w => s.setSp w
  | .a r => { s with a := r }
  | .x r => { s with x := r }
  | .y r => { s with y := r }
  | .c f => { s with c := f }
  | .z f => { s with z := f }
  | .i f => { s with i := f }
  | .d f => { s with d := f }
  | .b f => { s with b := f }
  | .v f => { s with v := f }
  | .n f => { s with n := f }

/-- Host preload of one register while the engine is idle (R52); refused before the first reset (log 13). -/
def preload (p : Preload) (s : State) : Host.Outcome State Fault Refusal :=
  match s.status with
  | .poweron => .refused .preloadBeforeReset
  | .idle => .next (p.apply s)

/-- `initialise()` (R73): zero-fill the whole memory. -/
def initialise (s : State) : State := { s with mem := [] }

end Sys2Proof.Machine
end

