-- ==== Sys2Proof/Safety.lean ====
section
/-! DEFINITION. The terms claims use: what a state must satisfy, what memory shows, the effect of a load and the cost of an
instruction written with numbers (R13), apart from the bit-vector operations the meanings are built from. -/

namespace Sys2Proof.Machine

/-- What every state reached from a legal start satisfies: legal parameters (R11), memory in canonical form (R70), SP's high byte
hard-wired to 0x01 under `SP_PAGE_WRAP` (R38). -/
abbrev State.Inv (s : State) : Prop :=
  s.cfg.wf = true ∧ s.mem.wf = true ∧ (s.cfg.spPageWrap = true → s.spHigh = 0x01)

/-- No unknown opcode was executed in the current or last `execute`: "a claim ... is `diag = []`" (D10). -/
abbrev State.NoUnknownOpcode (s : State) : Prop := s.diag = []

/-- The byte at an address, taken modulo 65536 (R72). -/
def State.byteAt (s : State) (n : Nat) : Byte := s.mem.read (n % 65536)

/-- The little-endian word at an address, as a number (R79). -/
def State.wordAt (s : State) (n : Nat) : Nat := (s.byteAt n).toNat + 256 * (s.byteAt (n + 1)).toNat

/-- The bytes at PC, as many as the longest instruction has (R100). -/
def State.window (s : State) : List Byte :=
  [s.byteAt s.pc.toNat, s.byteAt (s.pc.toNat + 1), s.byteAt (s.pc.toNat + 2)]

/-- The state after an instruction of `len` bytes has been fetched: PC is past it and each byte cost one cycle (R36, R130). -/
def State.fetched (s : State) (len : Nat) : State :=
  { s with pc := BitVec.ofNat 16 (s.pc.toNat + len), cyc := s.cyc - (len : Int) }

/-- The state after `v` was loaded by an instruction that advanced PC by `len` and cost `cycles`: A, Z, N, PC and the counter are
written and nothing else is (R36, R200). -/
def State.afterLoad (s : State) (v : Byte) (len cycles : Nat) : State :=
  { s with
    a := v, z := decide (v = 0), n := decide (128 ≤ v.toNat)
    pc := BitVec.ofNat 16 (s.pc.toNat + len), cyc := s.cyc - (cycles : Int) }

/-- The total column of R272: what an instruction costs, its opcode fetch included, when it is run in state `s`. -/
def cycleCost (i : Instr) (s : State) : Nat :=
  match i with
  | .ldaImm _ => 2
  | .ldaZp _ => 3
  | .ldaZpX _ => 4
  | .ldaZpY _ => 4
  | .ldaAbs _ => 4
  | .ldaAbsX w => if 256 ≤ w.toNat % 256 + s.x.toNat then 5 else 4
  | .ldaAbsY w => if 256 ≤ w.toNat % 256 + s.y.toNat then 5 else 4
  | .jsr _ => 6
  | .unknown _ => 1

/-- The byte an instruction reports: an unknown opcode its own, any other instruction none (R185, R186). -/
def reportedByte : Instr → Option Byte
  | .ldaImm _ => none
  | .ldaZp _ => none
  | .ldaZpX _ => none
  | .ldaZpY _ => none
  | .ldaAbs _ => none
  | .ldaAbsX _ => none
  | .ldaAbsY _ => none
  | .jsr _ => none
  | .unknown op => some op

/-- The part of a state an instruction's control and memory behaviour may depend on: everything but A, the seven flags and the
counter (R31, R41, R47). -/
def State.withoutResults (s : State) : State :=
  { s with a := 0, c := false, z := false, i := false, d := false, b := false, v := false, n := false, cyc := 0 }

end Sys2Proof.Machine
end

