-- ==== Sys2Proof/Certificates/Slice0/Obligations.lean ====
section
/-! DEFINITION. The statements about CORE, from the numbered rules of spec/. Addresses and results are written with numbers modulo
256 or 65536 (R13), and memory through `State.byteAt`, the read of one byte. A statement quantifies over every value of the
parameters of R11, which stand in `State.cfg`, unless it says otherwise. -/

open Sys2Proof Sys2Proof.Machine

/-! ## Encoding -/

/-- R106, R113: the bytes of one instruction of each form, written out from the spec's tables, decode to it under the defaults.
The five bytes A5, B5, AD, B9, 20 are defaults from the family (log 4). -/
def Obligations.SpecBytesDecode : Prop :=
  decode Config.standard [0xA9, 0x84] = .ok (.ldaImm 0x84, []) ∧
  decode Config.standard [0xA5, 0x42] = .ok (.ldaZp 0x42, []) ∧
  decode Config.standard [0xB5, 0x80] = .ok (.ldaZpX 0x80, []) ∧
  decode Config.standard [0xAD, 0x80, 0x44] = .ok (.ldaAbs 0x4480, []) ∧
  decode Config.standard [0xBD, 0x02, 0x44] = .ok (.ldaAbsX 0x4402, []) ∧
  decode Config.standard [0xB9, 0x80, 0x44] = .ok (.ldaAbsY 0x4480, []) ∧
  decode Config.standard [0x20, 0x34, 0x12] = .ok (.jsr 0x1234, []) ∧
  decode Config.standard [0x00, 0xA9] = .ok (.unknown 0x00, [0xA9]) ∧
  decode { Config.standard with opcLdaZpY := some 0x03 } [0x03, 0xF0] = .ok (.ldaZpY 0xF0, [])

/-- Every instruction a legal configuration can encode has an encoding, and the decoder reads it back whole, whatever follows. -/
def Obligations.DecodeOfEncode : Prop :=
  ∀ (cfg : Config) (i : Instr), cfg.wf = true → i.wf cfg = true →
    ∃ bs, encode cfg i = some bs ∧ ∀ rest, decode cfg (bs ++ rest) = .ok (i, rest)

/-- What the decoder reads is well-formed, and its bytes are the encoding of what was read, under any parameters. -/
def Obligations.EncodeOfDecode : Prop :=
  ∀ (cfg : Config) (bs : List Byte) (i : Instr) (rest : List Byte), decode cfg bs = .ok (i, rest) →
    i.wf cfg = true ∧ ∃ front, encode cfg i = some front ∧ bs = front ++ rest

/-- R109: seven of the 256 opcode bytes decode to an instruction, eight if `OPC_LDA_ZPY` is given; the others are unknown. -/
def Obligations.AssignedOpcodeCount : Prop :=
  ∀ cfg : Config, cfg.wf = true →
    ((List.range 256).countP fun k => decide (decodeOpcode cfg (BitVec.ofNat 8 k) ≠ .unknown)) =
      if cfg.opcLdaZpY.isSome then 8 else 7

/-! ## ALU core, flags, fetch unit, memory -/

/-- R140, R142, R143, R144, R146, R147: the ALU functions as numbers. -/
def Obligations.AluFunctions : Prop :=
  (∀ p, (inc16 p).toNat = (p.toNat + 1) % 65536) ∧
  (∀ b r, (zpindex b r).toNat = (b.toNat + r.toNat) % 256 ∧
    (zext16 (zpindex b r)).toNat = (b.toNat + r.toNat) % 256) ∧
  (∀ w r, (absindex w r).toNat = (w.toNat + r.toNat) % 65536) ∧
  (∀ w, (hi w).toNat = w.toNat / 256 ∧ (lo w).toNat = w.toNat % 256) ∧
  (∀ h l, (join h l).toNat = h.toNat * 256 + l.toNat) ∧
  (∀ v, iszero v = true ↔ v.toNat = 0) ∧
  (∀ v, (isneg v = true ↔ 128 ≤ v.toNat) ∧ ¬ (iszero v = true ∧ isneg v = true))

/-- The spec's inferences R141 (`dec16`) and R148 (`spadvance`, decisions D5 and D6; log 7, log 15), as numbers. -/
def Obligations.StackAndReturnArithmetic : Prop :=
  (∀ p, (dec16 p).toNat = if p.toNat = 0 then 65535 else p.toNat - 1) ∧
  (∀ s, (spadvance s).toNat = (s.toNat + 2) % 256)

/-- The spec's inference in R145: an index crosses a page exactly when the low-byte sum carries. -/
def Obligations.PageCrossIsCarry : Prop :=
  ∀ (w : Word) (r : Byte), pagecross w (absindex w r) = true ↔ 256 ≤ w.toNat % 256 + r.toNat

/-- R71: the raw port returns the byte last written at an address and changes no other byte and no other state. -/
def Obligations.PortReadAfterWrite : Prop :=
  ∀ (p q : Word) (v : Byte) (s : State),
    memRead q (memWrite p v s) = (if q = p then v else memRead q s) ∧
    memWrite p v s = { s with mem := (memWrite p v s).mem }

/-- Memories in canonical form that show the same byte at every address are the same data. The form is the model's own. -/
def Obligations.CanonicalMemoryIsItsContents : Prop :=
  ∀ m m' : Memory, m.wf = true → m'.wf = true → (∀ n, n < 65536 → m.read n = m'.read n) → m = m'

/-- The spec's inference R80: a word written at an address is read back byte by byte and by a word fetch there. `WriteWord` itself is
R75 with decisions D14 and D26 (log 17). -/
def Obligations.WrittenWordReadsBack : Prop :=
  ∀ (p w : Word) (s : State),
    (writeWord p w s).byteAt p.toNat = BitVec.ofNat 8 w.toNat ∧
    (writeWord p w s).byteAt (p.toNat + 1) = BitVec.ofNat 8 (w.toNat / 256) ∧
    (∀ n, n < 65536 → n ≠ p.toNat → n ≠ (p.toNat + 1) % 65536 → (writeWord p w s).byteAt n = s.byteAt n) ∧
    (writeWord p w s).cyc = s.cyc - 2 ∧
    (fetchWord ((writeWord p w s).setPc p)).1 = w

/-- R130, R131: the fetch unit reads at the old PC, low byte first, advances PC modulo 65536 and charges one cycle a byte. -/
def Obligations.FetchUnit : Prop :=
  ∀ s : State,
    fetchByte s = (s.byteAt s.pc.toNat,
      { s with pc := BitVec.ofNat 16 (s.pc.toNat + 1), cyc := s.cyc - 1 }) ∧
    (fetchWord s).1.toNat = s.wordAt s.pc.toNat ∧
    (fetchWord s).2 = { s with pc := BitVec.ofNat 16 (s.pc.toNat + 2), cyc := s.cyc - 2 }

/-! ## Addressing-mode resolver -/

/-- R162 to R167: the effective address and the charge of the six non-immediate modes. -/
def Obligations.ResolvedAddresses : Prop :=
  ∀ s : State,
    resolve .zp s = (.address (BitVec.ofNat 16 (s.byteAt s.pc.toNat).toNat), s.fetched 1) ∧
    resolve .zpx s = (.address (BitVec.ofNat 16 (((s.byteAt s.pc.toNat).toNat + s.x.toNat) % 256)),
      { s.fetched 1 with cyc := s.cyc - 2 }) ∧
    resolve .zpy s = (.address (BitVec.ofNat 16 (((s.byteAt s.pc.toNat).toNat + s.y.toNat) % 256)),
      { s.fetched 1 with cyc := s.cyc - 2 }) ∧
    resolve .abs s = (.address (BitVec.ofNat 16 (s.wordAt s.pc.toNat)), s.fetched 2) ∧
    resolve .absx s = (.address (BitVec.ofNat 16 (s.wordAt s.pc.toNat + s.x.toNat)),
      { s.fetched 2 with
        cyc := s.cyc - if s.wordAt s.pc.toNat / 256 =
          (s.wordAt s.pc.toNat + s.x.toNat) % 65536 / 256 then 2 else 3 }) ∧
    resolve .absy s = (.address (BitVec.ofNat 16 (s.wordAt s.pc.toNat + s.y.toNat)),
      { s.fetched 2 with
        cyc := s.cyc - if s.wordAt s.pc.toNat / 256 =
          (s.wordAt s.pc.toNat + s.y.toNat) % 65536 / 256 then 2 else 3 })

/-- R160: in every mode the resolver answers, and the only state it changes is PC and the cycle counter. -/
def Obligations.ResolverWritesPcAndCyclesOnly : Prop :=
  ∀ (m : Mode) (s : State), ∃ (o : Operand) (p : Word) (k : Nat),
    resolve m s = (o, { s with pc := p, cyc := s.cyc - (k : Int) }) ∧ (o = .immediate ↔ m = .imm)

/-- R169: the operand value is the fetched operand byte or the byte at the address; either branch charges exactly 1. -/
def Obligations.OperandValueRule : Prop :=
  ∀ (s : State) (p : Word),
    operandValue .immediate s = fetchByte s ∧
    operandValue (.address p) s = (s.byteAt p.toNat, { s with cyc := s.cyc - 1 }) ∧
    (operandValue .immediate s).2.cyc = s.cyc - 1

/-! ## Stack pointer -/

/-- R38 with decision D5 (log 7): SP stays in the stack page and a write drops the high byte; without the wrap all 16 bits are
kept. -/
def Obligations.StackPointerIsInItsPage : Prop :=
  ∀ (s : State) (w : Word),
    (s.cfg.spPageWrap = true → s.sp.toNat = 256 + s.sLow.toNat ∧ (s.setSp w).sp.toNat = 256 + w.toNat % 256 ∧
      (s.setSp w).sLow.toNat = w.toNat % 256) ∧
    (s.cfg.spPageWrap = false → (s.setSp w).sp = w)

/-! ## The meanings: each instruction completes, with its result, once its bytes are fetched -/

/-- R201, R202, R205 after the fetch: the loads without an index complete in every state. The cost of the data read is decision D13
(log 16). -/
def Obligations.UnindexedLoadsComplete : Prop :=
  ∀ s : State,
    (∀ b, exec (.ldaImm b) s = .next (s.afterLoad b 0 0)) ∧
    (∀ z, exec (.ldaZp z) s = .next (s.afterLoad (s.byteAt z.toNat) 0 1)) ∧
    (∀ w, exec (.ldaAbs w) s = .next (s.afterLoad (s.byteAt w.toNat) 0 1))

/-- R203, R204, R206, R207 after the fetch: the indexed loads complete in every state. The cost of the data read is decision D13
(log 16). -/
def Obligations.IndexedLoadsComplete : Prop :=
  ∀ s : State,
    (∀ z, exec (.ldaZpX z) s = .next (s.afterLoad (s.byteAt ((z.toNat + s.x.toNat) % 256)) 0 2)) ∧
    (∀ z, exec (.ldaZpY z) s = .next (s.afterLoad (s.byteAt ((z.toNat + s.y.toNat) % 256)) 0 2)) ∧
    (∀ w, exec (.ldaAbsX w) s = .next (s.afterLoad (s.byteAt (w.toNat + s.x.toNat)) 0
      (if 256 ≤ w.toNat % 256 + s.x.toNat then 2 else 1))) ∧
    (∀ w, exec (.ldaAbsY w) s = .next (s.afterLoad (s.byteAt (w.toNat + s.y.toNat)) 0
      (if 256 ≤ w.toNat % 256 + s.y.toNat then 2 else 1)))

/-- R220 after the fetch: JSR completes in every state; PC is the target, the word PC - 1 lies little-endian at the old SP, SP has
advanced (decisions D5 and D6; log 7, log 15), three cycles are charged. -/
def Obligations.JsrCompletes : Prop :=
  ∀ (w : Word) (s : State), ∃ t, exec (.jsr w) s = .next t ∧
    t.pc = w ∧
    t.byteAt s.sp.toNat = BitVec.ofNat 8 (s.pc.toNat + 65535) ∧
    t.byteAt (s.sp.toNat + 1) = BitVec.ofNat 8 ((s.pc.toNat + 65535) % 65536 / 256) ∧
    t.sp.toNat = (if s.cfg.spPageWrap then 256 + (s.sLow.toNat + 2) % 256 else (s.sp.toNat + 2) % 65536) ∧
    t.cyc = s.cyc - 3

/-- R185, R186 after the fetch: an unknown opcode completes in every state, with its byte at the end of `diag` and nothing else. -/
def Obligations.UnknownOpcodeCompletes : Prop :=
  ∀ (op : Byte) (s : State), exec (.unknown op) s = .next { s with diag := s.diag ++ [op] }

/-! ## Frames -/

/-- R200: a load changes A, Z, N and the counter only: no other register or flag, not SP, PC (already past the instruction), `diag`
or status, and no byte of memory. -/
def Obligations.LoadFrame : Prop :=
  ∀ (i : Instr) (m : Mode) (s t : State), i.opcode = .lda m → exec i s = .next t →
    t.pc = s.pc ∧ t.x = s.x ∧ t.y = s.y ∧ t.sLow = s.sLow ∧ t.spHigh = s.spHigh ∧
    t.c = s.c ∧ t.i = s.i ∧ t.d = s.d ∧ t.b = s.b ∧ t.v = s.v ∧
    t.budget = s.budget ∧ t.diag = s.diag ∧ t.status = s.status ∧ t.cfg = s.cfg ∧
    ∀ n, t.mem.read n = s.mem.read n

/-- R220: JSR changes PC, SP (which it advances by 2), the counter and the two bytes at the old SP only; no flag, not A, X, Y, `diag`.
Under `SP_PAGE_WRAP` SP's high byte is not written. -/
def Obligations.JsrFrame : Prop :=
  ∀ (w : Word) (s t : State), exec (.jsr w) s = .next t →
    t.a = s.a ∧ t.x = s.x ∧ t.y = s.y ∧
    t.c = s.c ∧ t.z = s.z ∧ t.i = s.i ∧ t.d = s.d ∧ t.b = s.b ∧ t.v = s.v ∧ t.n = s.n ∧
    t.budget = s.budget ∧ t.diag = s.diag ∧ t.status = s.status ∧ t.cfg = s.cfg ∧
    (s.cfg.spPageWrap = true → t.spHigh = s.spHigh) ∧
    ∀ p : Word, s.sp = p → ∀ n, n ≠ p.toNat → n ≠ (p.toNat + 1) % 65536 → t.mem.read n = s.mem.read n

/-- R185: an unknown opcode changes `diag` only (PC and the counter moved with the fetch): no register, no flag, no byte of memory. -/
def Obligations.UnknownOpcodeFrame : Prop :=
  ∀ (op : Byte) (s t : State), exec (.unknown op) s = .next t →
    t.pc = s.pc ∧ t.a = s.a ∧ t.x = s.x ∧ t.y = s.y ∧ t.sLow = s.sLow ∧ t.spHigh = s.spHigh ∧
    t.c = s.c ∧ t.z = s.z ∧ t.i = s.i ∧ t.d = s.d ∧ t.b = s.b ∧ t.v = s.v ∧ t.n = s.n ∧
    t.cyc = s.cyc ∧ t.budget = s.budget ∧ t.status = s.status ∧ t.cfg = s.cfg ∧
    ∀ n, t.mem.read n = s.mem.read n

/-! ## One step -/

/-- A step of an idle machine is `exec` of the instruction the decoder reads at PC, in the state with PC past its bytes and one cycle
charged for each; the bytes at PC always decode. -/
def Obligations.StepRunsDecodedInstruction : Prop :=
  ∀ s : State, s.status = .idle →
    (∃ i rest, decode s.cfg s.window = .ok (i, rest)) ∧
    ∀ i rest, decode s.cfg s.window = .ok (i, rest) →
      step s = exec i { s with pc := BitVec.ofNat 16 (s.pc.toNat + i.length), cyc := s.cyc - (i.length : Int) }

/-- R184: a step of an idle machine is the spec's own `Step()`, in which the resolver fetches its operand bytes itself; it always
answers a next state. -/
def Obligations.StepIsSpecStep : Prop :=
  ∀ s : State, s.status = .idle → step s = .next (engineStep s)

/-- Before the first reset `execute` is refused, and so are a step and a preload (decision D20; log 12, log 13). -/
def Obligations.RefusedBeforeReset : Prop :=
  ∀ s : State, s.status = .poweron →
    step s = .refused .executeBeforeReset ∧
    (∀ k, execute k s = .refused .executeBeforeReset) ∧
    (∀ p, preload p s = .refused .preloadBeforeReset)

/-- R201: `LDA #b` as a whole: A is the operand byte, PC is past two bytes, 2 cycles. -/
def Obligations.LoadImmediateStep : Prop :=
  ∀ s : State, s.status = .idle → s.byteAt s.pc.toNat = 0xA9 →
    step s = .next (s.afterLoad (s.byteAt (s.pc.toNat + 1)) 2 2)

/-- R202: `LDA z` as a whole, for every value of `OPC_LDA_ZP`: the byte of the zero page, 3 cycles. -/
def Obligations.LoadZeroPageStep : Prop :=
  ∀ s : State, s.status = .idle → s.cfg.wf = true → s.byteAt s.pc.toNat = s.cfg.opcLdaZp →
    step s = .next (s.afterLoad (s.byteAt (s.byteAt (s.pc.toNat + 1)).toNat) 2 3)

/-- R203, R204: `LDA z,X` and `LDA z,Y` as a whole, for every value of their opcode bytes: the address wraps inside the zero page,
always 4 cycles. The data read's cycle is decision D13 (log 16). -/
def Obligations.LoadZeroPageIndexedStep : Prop :=
  ∀ s : State, s.status = .idle → s.cfg.wf = true →
    (s.byteAt s.pc.toNat = s.cfg.opcLdaZpX → step s = .next (s.afterLoad
      (s.byteAt (((s.byteAt (s.pc.toNat + 1)).toNat + s.x.toNat) % 256)) 2 4)) ∧
    (s.cfg.opcLdaZpY = some (s.byteAt s.pc.toNat) → step s = .next (s.afterLoad
      (s.byteAt (((s.byteAt (s.pc.toNat + 1)).toNat + s.y.toNat) % 256)) 2 4))

/-- R205: `LDA w` as a whole, for every value of `OPC_LDA_ABS`: 4 cycles, a total the spec infers (D13, log 16). -/
def Obligations.LoadAbsoluteStep : Prop :=
  ∀ s : State, s.status = .idle → s.cfg.wf = true → s.byteAt s.pc.toNat = s.cfg.opcLdaAbs →
    step s = .next (s.afterLoad (s.byteAt (s.wordAt (s.pc.toNat + 1))) 3 4)

/-- R206, R207: `LDA w,X` and `LDA w,Y` as a whole: the address wraps modulo 65536, 5 cycles exactly when the high byte of the
effective address differs from that of the base. The data read's cycle is decision D13 (log 16). -/
def Obligations.LoadAbsoluteIndexedStep : Prop :=
  ∀ s : State, s.status = .idle → s.cfg.wf = true →
    (s.byteAt s.pc.toNat = 0xBD → step s = .next (s.afterLoad
      (s.byteAt (s.wordAt (s.pc.toNat + 1) + s.x.toNat)) 3
      (if s.wordAt (s.pc.toNat + 1) / 256 = (s.wordAt (s.pc.toNat + 1) + s.x.toNat) % 65536 / 256
        then 4 else 5))) ∧
    (s.byteAt s.pc.toNat = s.cfg.opcLdaAbsY → step s = .next (s.afterLoad
      (s.byteAt (s.wordAt (s.pc.toNat + 1) + s.y.toNat)) 3
      (if s.wordAt (s.pc.toNat + 1) / 256 = (s.wordAt (s.pc.toNat + 1) + s.y.toNat) % 65536 / 256
        then 4 else 5)))

/-- R200: a step whose opcode byte decodes to a load in mode `m` loads the byte the spec's `Resolve` and `OperandValue` give, sets Z and N
from it and never both, and writes nothing else but PC and the counter. -/
def Obligations.LoadStepRule : Prop :=
  ∀ (s : State) (m : Mode), s.status = .idle → decodeOpcode s.cfg (s.byteAt s.pc.toNat) = .lda m →
    ∃ t v u, step s = .next t ∧
      (v, u) = operandValue (resolve m (fetchByte s).2).1 (resolve m (fetchByte s).2).2 ∧
      t.pc = u.pc ∧ t.cyc = u.cyc ∧
      t.a = v ∧ t.z = decide (v.toNat = 0) ∧ t.n = decide (128 ≤ v.toNat) ∧ ¬ (t.z = true ∧ t.n = true) ∧
      t.x = s.x ∧ t.y = s.y ∧ t.sLow = s.sLow ∧ t.spHigh = s.spHigh ∧
      t.c = s.c ∧ t.i = s.i ∧ t.d = s.d ∧ t.b = s.b ∧ t.v = s.v ∧
      t.diag = s.diag ∧ t.budget = s.budget ∧ t.status = s.status ∧ t.cfg = s.cfg ∧
      ∀ n, t.mem.read n = s.mem.read n

/-- R220 as a whole, for every value of `OPC_JSR` and both readings of `SP_PAGE_WRAP`: the return word P + 2 lies little-endian at the
old SP, PC is the operand word, SP advances by 2, 6 cycles. The direction of SP, its wrap and the address of the high byte are
decisions D6, D5 and D26 (log 15, log 7, log 17). -/
def Obligations.JumpToSubroutineStep : Prop :=
  ∀ s : State, s.status = .idle → s.cfg.wf = true → s.byteAt s.pc.toNat = s.cfg.opcJsr →
    ∃ t, step s = .next t ∧
      t.pc = BitVec.ofNat 16 (s.wordAt (s.pc.toNat + 1)) ∧
      t.byteAt s.sp.toNat = BitVec.ofNat 8 (s.pc.toNat + 2) ∧
      t.byteAt (s.sp.toNat + 1) = BitVec.ofNat 8 ((s.pc.toNat + 2) % 65536 / 256) ∧
      (∀ n, n ≠ s.sp.toNat → n ≠ (s.sp.toNat + 1) % 65536 → t.mem.read n = s.mem.read n) ∧
      t.sp.toNat = (if s.cfg.spPageWrap then 256 + (s.sLow.toNat + 2) % 256 else (s.sp.toNat + 2) % 65536) ∧
      t.cyc = s.cyc - 6 ∧
      t.a = s.a ∧ t.x = s.x ∧ t.y = s.y ∧
      t.c = s.c ∧ t.z = s.z ∧ t.i = s.i ∧ t.d = s.d ∧ t.b = s.b ∧ t.v = s.v ∧ t.n = s.n ∧
      t.diag = s.diag ∧ t.budget = s.budget ∧ t.status = s.status ∧ t.cfg = s.cfg

/-- R185: a byte that names no instruction: PC advances by one, one cycle, the byte is appended to `diag`, nothing else changes.
PC does advance although "all registers" are unchanged (conflict C3, log 19); what `diag` holds is decision D10 (R186, log 18). -/
def Obligations.UnknownOpcodeStep : Prop :=
  ∀ s : State, s.status = .idle → s.byteAt s.pc.toNat ∉ s.cfg.opcodeBytes →
    step s = .next { s with
      pc := BitVec.ofNat 16 (s.pc.toNat + 1), cyc := s.cyc - 1, diag := s.diag ++ [s.byteAt s.pc.toNat] }

/-- R36: an instruction that is not JSR leaves PC at the opcode's address plus its length, 1 to 3, modulo 65536; JSR leaves PC at its
target; an unknown opcode has length 1. -/
def Obligations.ProgramCounterAdvance : Prop :=
  ∀ (s : State) (i : Instr) (rest : List Byte), s.status = .idle → decode s.cfg s.window = .ok (i, rest) →
    ∃ t, step s = .next t ∧ 1 ≤ i.length ∧ i.length ≤ 3 ∧
      ((∀ w, i ≠ .jsr w) → t.pc.toNat = (s.pc.toNat + i.length) % 65536) ∧
      (∀ w, i = .jsr w → t.pc = w) ∧
      (∀ op, i = .unknown op → i.length = 1)

/-- The cycle table R272 (several of its totals are the spec's inferences, D13, log 16): a step charges exactly the instruction's
total. -/
def Obligations.CycleTable : Prop :=
  ∀ (s : State) (i : Instr) (rest : List Byte), s.status = .idle → decode s.cfg s.window = .ok (i, rest) →
    ∃ t, step s = .next t ∧ t.cyc = s.cyc - (cycleCost i s : Int)

/-- The whole-machine reading of R32, R33, R41 and R53: no step writes X, Y, C, I, D, V, B, the budget, the status or the parameters. -/
def Obligations.StepNeverWrites : Prop :=
  ∀ s t : State, step s = .next t →
    t.x = s.x ∧ t.y = s.y ∧ t.c = s.c ∧ t.i = s.i ∧ t.d = s.d ∧ t.v = s.v ∧ t.b = s.b ∧
    t.budget = s.budget ∧ t.status = s.status ∧ t.cfg = s.cfg

/-- R39 with decisions D5 and D6 (log 7, log 15): a step moves SP only if it runs a JSR, and then the stored byte grows by 2 modulo 256. -/
def Obligations.StackPointerMovesOnlyByCalls : Prop :=
  ∀ s t : State, s.cfg.spPageWrap = true → step s = .next t →
    t.spHigh = s.spHigh ∧
    (decodeOpcode s.cfg (s.byteAt s.pc.toNat) = .jsr → t.sLow.toNat = (s.sLow.toNat + 2) % 256) ∧
    (decodeOpcode s.cfg (s.byteAt s.pc.toNat) ≠ .jsr → t.sLow = s.sLow)

/-- Noninterference, from R31, R41 and R240: A, the seven flags and the cycle counter influence nothing else. Two states that
differ only in them step to states that differ only in them, at the same cost. -/
def Obligations.AccumulatorFlagsAndCounterAreNeverRead : Prop :=
  ∀ s s' : State, s.withoutResults = s'.withoutResults →
    ∀ t, step s = .next t → ∃ t', step s' = .next t' ∧
      t.withoutResults = t'.withoutResults ∧ s.cyc - t.cyc = s'.cyc - t'.cyc

/-! ## Invariants -/

/-- The state after reset satisfies the invariant, under any legal parameters and under the defaults. -/
def Obligations.ResetSatisfiesInvariant : Prop :=
  (∀ cfg : Config, cfg.wf = true → (State.resetWith cfg).Inv) ∧ State.reset.Inv

/-- Every step keeps the invariant: memory stays in canonical form, the parameters stay legal, SP's hard-wired byte stays 0x01. -/
def Obligations.StepKeepsInvariant : Prop :=
  ∀ s t : State, s.Inv → step s = .next t → t.Inv

/-- Every host move and every `execute` keeps the invariant. -/
def Obligations.HostMovesKeepInvariant : Prop :=
  ∀ s : State, s.Inv →
    (hostReset s).Inv ∧ (initialise s).Inv ∧
    (∀ p v, (memWrite p v s).Inv) ∧ (∀ p bs, (loadBytes p bs s).Inv) ∧
    (∀ p t, preload p s = .next t → t.Inv) ∧
    (∀ k t, execute k s = .next t → t.Inv)

/-! ## Reset and preload -/

/-- R260: reset gives the documented values and keeps B, `cyc`, `budget`, `diag` and the parameters; it leaves memory alone where
`RESET_CLEARS_MEMORY` is false. -/
def Obligations.ResetRule : Prop :=
  ∀ s : State,
    (hostReset s).pc.toNat = 0xFFFC ∧ (hostReset s).sp.toNat = 0x0100 ∧
    (hostReset s).a = 0 ∧ (hostReset s).x = 0 ∧ (hostReset s).y = 0 ∧
    (hostReset s).c = false ∧ (hostReset s).z = false ∧ (hostReset s).i = false ∧ (hostReset s).d = false ∧
    (hostReset s).v = false ∧ (hostReset s).n = false ∧
    (hostReset s).b = s.b ∧ (hostReset s).status = .idle ∧
    (hostReset s).cyc = s.cyc ∧ (hostReset s).budget = s.budget ∧ (hostReset s).diag = s.diag ∧
    (hostReset s).cfg = s.cfg ∧
    (s.cfg.resetClearsMemory = false → (hostReset s).mem = s.mem)

/-- The spec's inference R262 and the OPEN parameter of R261 (log 8): two resets are one, and where `RESET_CLEARS_MEMORY` is true every
byte is 0 after a reset. -/
def Obligations.ResetIsIdempotent : Prop :=
  ∀ s : State, hostReset (hostReset s) = hostReset s ∧
    (s.cfg.resetClearsMemory = true → ∀ n, (hostReset s).byteAt n = 0)

/-- R54 with decisions D4 and D7 and log 2, 3: the model's state after reset is the reset of the machine at power-on, for every
parameter value, with B the free `B_POWERON`; the default machine is one instance. -/
def Obligations.ResetStateIsResetOfPowerOn : Prop :=
  (∀ cfg : Config, hostReset (State.powerOn cfg) = State.resetWith cfg ∧ (State.resetWith cfg).b = cfg.bPowerOn ∧
    ∀ n, (State.resetWith cfg).byteAt n = 0) ∧
  State.reset = State.resetWith Config.standard

/-- R52 with decision D11 (log 13): an idle machine takes the preload of any one register and of no other state. SP keeps the low byte
of the value under `SP_PAGE_WRAP` and all 16 bits without it. -/
def Obligations.PreloadWritesOneRegister : Prop :=
  ∀ s : State, s.status = .idle →
    (∀ w, preload (.pc w) s = .next { s with pc := w }) ∧
    (∀ w, ∃ t, preload (.sp w) s = .next t ∧ t.sLow.toNat = w.toNat % 256 ∧
      { t with sLow := s.sLow, spHigh := s.spHigh } = s ∧ (s.cfg.spPageWrap = true → t.spHigh = s.spHigh) ∧
      (s.cfg.spPageWrap = false → t.sp = w)) ∧
    (∀ r, preload (.a r) s = .next { s with a := r } ∧ preload (.x r) s = .next { s with x := r } ∧
      preload (.y r) s = .next { s with y := r }) ∧
    (∀ f, preload (.c f) s = .next { s with c := f } ∧ preload (.z f) s = .next { s with z := f } ∧
      preload (.i f) s = .next { s with i := f } ∧ preload (.d f) s = .next { s with d := f } ∧
      preload (.b f) s = .next { s with b := f } ∧ preload (.v f) s = .next { s with v := f } ∧
      preload (.n f) s = .next { s with n := f })

/-! ## Execute -/

/-- R181: a budget of 0 or less runs nothing: no register, flag or byte changes, `diag` is empty and the result is 0. -/
def Obligations.NonPositiveBudgetRunsNothing : Prop :=
  ∀ (s : State) (k : Int), s.status = .idle → k ≤ 0 →
    ∃ t, execute k s = .next t ∧ t.cyclesConsumed = 0 ∧
      t = { s with cyc := k, budget := k, diag := [] }

/-- R180, R187: `execute` loads the budget, empties `diag`, runs whole steps while the remaining budget is above zero, tested at instruction
boundaries only, and returns budget minus remaining. That it always ends, after at least one instruction on a positive budget and at
most as many as the budget, is the spec's inference R187. -/
def Obligations.ExecuteRunsStepsWhileBudgetRemains : Prop :=
  ∀ (s : State) (k : Int), s.status = .idle →
    ∃ (m : Nat) (t : State), execute k s = .next t ∧
      Sys2Proof.core.run m { s with cyc := k, budget := k, diag := [] } = .next t ∧
      t.cyc ≤ 0 ∧ t.cyclesConsumed = k - t.cyc ∧ (m : Int) ≤ max k 0 ∧ (0 < k → 1 ≤ m) ∧
      ∀ j, j < m → ∃ u, Sys2Proof.core.run j { s with cyc := k, budget := k, diag := [] } = .next u ∧ 0 < u.cyc

/-- The bounds of R49 and R183 (the spec's inferences): a positive budget is used up and overshot by at most 5. -/
def Obligations.OvershootIsAtMostFive : Prop :=
  ∀ (s : State) (k : Int), s.status = .idle → 0 < k →
    ∃ t, execute k s = .next t ∧ t.budget = k ∧ t.cyclesConsumed = k - t.cyc ∧
      k ≤ t.cyclesConsumed ∧ t.cyclesConsumed ≤ k + 5 ∧ -5 ≤ t.cyc ∧ t.cyc ≤ 0

/-- The spec's inference in R243: `execute(1)` is exactly one step. -/
def Obligations.ExecuteOneIsOneStep : Prop :=
  ∀ s : State, s.status = .idle → execute 1 s = step { s with cyc := 1, budget := 1, diag := [] }

/-- R191 and R56 (decision D18): a call does not depend on the counter, budget and `diag` an earlier call left. -/
def Obligations.ExecuteForgetsEarlierCalls : Prop :=
  ∀ (s : State) (k c q : Int) (ds : List Byte), execute k { s with cyc := c, budget := q, diag := ds } = execute k s

/-- 95_test_vectors.md Part 4, property 4 (R32, R33, R41): no `execute` changes X, Y, C, I, D, V or B. -/
def Obligations.ExecuteNeverWrites : Prop :=
  ∀ (s t : State) (k : Int), execute k s = .next t →
    t.x = s.x ∧ t.y = s.y ∧ t.c = s.c ∧ t.i = s.i ∧ t.d = s.d ∧ t.v = s.v ∧ t.b = s.b ∧
    t.status = s.status ∧ t.cfg = s.cfg

/-- 95_test_vectors.md Part 4, property 5 (R76; decisions D5 and D26, log 7, log 17): `execute` changes no byte outside 0x0100 to
0x0200, and 0x0200 only if S is odd. -/
def Obligations.ExecuteWritesOnlyTheStackPage : Prop :=
  ∀ (s t : State) (k : Int), s.cfg.spPageWrap = true → execute k s = .next t →
    (∀ n, n < 0x0100 ∨ 0x0200 < n → t.mem.read n = s.mem.read n) ∧
    (s.sLow.toNat % 2 = 0 → t.mem.read 0x0200 = s.mem.read 0x0200)

/-- 95_test_vectors.md Part 4, properties 3 and 7 (R39, R183, R186; decisions D5, D6, D10 and D13, log 7, log 15, log 16, log 18): `run`
lists all the instructions an `execute` runs, in order, each with the state it starts in. The result is the sum of their costs, `diag` is
the bytes of the unknown opcodes among them, one report each, and each JSR advances SP by 2: inside the stack page under
`SP_PAGE_WRAP`, modulo 65536 without it. -/
def Obligations.ExecuteCountsCallsAndReports : Prop :=
  ∀ (s t : State) (k : Int), execute k s = .next t →
    ∃ run : List (Instr × State),
      Sys2Proof.core.run run.length { s with cyc := k, budget := k, diag := [] } = .next t ∧
      (∀ j (hj : j < run.length),
        Sys2Proof.core.run j { s with cyc := k, budget := k, diag := [] } = .next run[j].2 ∧
        ∃ rest, decode run[j].2.cfg run[j].2.window = .ok (run[j].1, rest)) ∧
      t.cyclesConsumed = ((run.map fun e => cycleCost e.1 e.2).sum : Nat) ∧
      t.diag = run.filterMap (fun e => reportedByte e.1) ∧
      t.diag.length = run.countP (fun e => e.1.opcode = .unknown) ∧
      (s.cfg.spPageWrap = true →
        t.sLow.toNat = (s.sLow.toNat + 2 * run.countP (fun e => e.1.opcode = .jsr)) % 256) ∧
      (s.cfg.spPageWrap = false →
        t.sp.toNat = (s.sp.toNat + 2 * run.countP (fun e => e.1.opcode = .jsr)) % 65536)
end

