-- ==== Sys2Proof/Laws/Alu.lean ====
section
/-! SUPPORT. The ALU functions as numbers: each lemma says what a function is on naturals, and the byte laws of words. -/

namespace Sys2Proof.Machine

@[simp] theorem inc16_toNat (p : Word) : (inc16 p).toNat = (p.toNat + 1) % 65536 := by
  simp [inc16, BitVec.toNat_add]

@[simp] theorem dec16_toNat (p : Word) : (dec16 p).toNat = (p.toNat + 65535) % 65536 := by
  simp [dec16, BitVec.toNat_sub, Nat.add_comm]

@[simp] theorem lo_toNat (w : Word) : (lo w).toNat = w.toNat % 256 := by
  simp [lo]

@[simp] theorem hi_toNat (w : Word) : (hi w).toNat = w.toNat / 256 := by
  have := w.isLt
  simp [hi, Nat.shiftRight_eq_div_pow]
  omega

@[simp] theorem join_toNat (h l : Byte) : (join h l).toNat = h.toNat * 256 + l.toNat := by
  have := l.isLt
  have e : (join h l).toNat = h.toNat <<< 8 ||| l.toNat := BitVec.toNat_append h l
  rw [e, ← Nat.shiftLeft_add_eq_or_of_lt (by simpa using this), Nat.shiftLeft_eq]

theorem lo_eq (w : Word) : lo w = BitVec.ofNat 8 w.toNat := by
  apply BitVec.eq_of_toNat_eq
  simp

theorem hi_eq (w : Word) : hi w = BitVec.ofNat 8 (w.toNat / 256) := by
  apply BitVec.eq_of_toNat_eq
  have := w.isLt
  simp
  omega

@[simp] theorem zext16_toNat (b : Byte) : (zext16 b).toNat = b.toNat := by
  simp [zext16]

@[simp] theorem zpindex_toNat (b r : Byte) : (zpindex b r).toNat = (b.toNat + r.toNat) % 256 := by
  simp [zpindex, BitVec.toNat_add]

@[simp] theorem absindex_toNat (w : Word) (r : Byte) : (absindex w r).toNat = (w.toNat + r.toNat) % 65536 := by
  simp [absindex, BitVec.toNat_add]

@[simp] theorem spadvance_toNat (s : Byte) : (spadvance s).toNat = (s.toNat + 2) % 256 := by
  simp [spadvance, BitVec.toNat_add]

@[simp] theorem lo_join (h l : Byte) : lo (join h l) = l := by
  apply BitVec.eq_of_toNat_eq
  have := l.isLt
  simp
  omega

@[simp] theorem hi_join (h l : Byte) : hi (join h l) = h := by
  apply BitVec.eq_of_toNat_eq
  have := l.isLt
  simp
  omega

@[simp] theorem join_hi_lo (w : Word) : join (hi w) (lo w) = w := by
  apply BitVec.eq_of_toNat_eq
  simp
  omega

@[simp] theorem lo_zext16 (b : Byte) : lo (zext16 b) = b := lo_join 0 b

@[simp] theorem isneg_eq (v : Byte) : isneg v = decide (128 ≤ v.toNat) := by
  have h : v.getLsbD 7 = v.msb := by simp [BitVec.msb_eq_getLsbD_last]
  rw [isneg, h, BitVec.msb_eq_decide]

@[simp] theorem iszero_eq (v : Byte) : iszero v = decide (v = 0) := rfl

end Sys2Proof.Machine
end

