-- ==== Sys2Proof/Laws/Decode.lean ====
section
/-! SUPPORT. What the decoder answers, row by row of the opcode map. -/

namespace Sys2Proof

/-- The keys of the opcode map are the assigned bytes. -/
theorem opcodeMap_keys (cfg : Config) : (opcodeMap cfg).map Prod.fst = cfg.opcodeBytes := by
  cases h : cfg.opcLdaZpY <;> simp [opcodeMap, Config.opcodeBytes, h]

theorem lookupOpcode_of_mem {rows : List (Byte × Opcode)} {k : Byte} {o : Opcode}
    (hnd : (rows.map Prod.fst).Nodup) (hm : (k, o) ∈ rows) : lookupOpcode rows k = o := by
  induction rows with
  | nil => simp at hm
  | cons row rest ih =>
    obtain ⟨k', o'⟩ := row
    simp only [List.map_cons, List.nodup_cons] at hnd
    simp only [lookupOpcode]
    rcases List.mem_cons.1 hm with heq | hin
    · simp [(Prod.mk.inj heq).1, (Prod.mk.inj heq).2]
    · rw [if_neg, ih hnd.2 hin]
      rintro rfl
      exact hnd.1 (List.mem_map.2 ⟨(k, o), hin, rfl⟩)

/-- A lookup answers unknown, or a row of the map with the byte as its key. -/
theorem lookupOpcode_cases (rows : List (Byte × Opcode)) (k : Byte) :
    (k ∉ rows.map Prod.fst ∧ lookupOpcode rows k = .unknown) ∨ (k, lookupOpcode rows k) ∈ rows := by
  induction rows with
  | nil => simp [lookupOpcode]
  | cons row rest ih =>
    obtain ⟨k', o'⟩ := row
    simp only [lookupOpcode, List.map_cons, List.mem_cons, not_or]
    split
    · exact .inr (.inl (by simp [*]))
    · rcases ih with ⟨h1, h2⟩ | h
      · exact .inl ⟨⟨‹_›, h1⟩, h2⟩
      · exact .inr (.inr h)

/-- The decoder on an assigned byte, under legal parameters. -/
theorem decodeOpcode_of_mem {cfg : Config} (h : cfg.wf = true) {k : Byte} {o : Opcode}
    (hm : (k, o) ∈ opcodeMap cfg) : decodeOpcode cfg k = o :=
  lookupOpcode_of_mem (by rw [opcodeMap_keys]; simpa [Config.wf] using h) hm

theorem decodeOpcode_ldaImm (cfg : Config) : decodeOpcode cfg Config.opcLdaImm = .lda .imm := by
  simp [decodeOpcode, opcodeMap, lookupOpcode]

theorem decodeOpcode_ldaZp {cfg : Config} (h : cfg.wf = true) : decodeOpcode cfg cfg.opcLdaZp = .lda .zp :=
  decodeOpcode_of_mem h (by simp [opcodeMap])

theorem decodeOpcode_ldaZpX {cfg : Config} (h : cfg.wf = true) : decodeOpcode cfg cfg.opcLdaZpX = .lda .zpx :=
  decodeOpcode_of_mem h (by simp [opcodeMap])

theorem decodeOpcode_ldaZpY {cfg : Config} (h : cfg.wf = true) {q : Byte} (hq : cfg.opcLdaZpY = some q) :
    decodeOpcode cfg q = .lda .zpy :=
  decodeOpcode_of_mem h (by simp [opcodeMap, hq])

theorem decodeOpcode_ldaAbs {cfg : Config} (h : cfg.wf = true) : decodeOpcode cfg cfg.opcLdaAbs = .lda .abs :=
  decodeOpcode_of_mem h (by simp [opcodeMap])

theorem decodeOpcode_ldaAbsX {cfg : Config} (h : cfg.wf = true) :
    decodeOpcode cfg Config.opcLdaAbsX = .lda .absx :=
  decodeOpcode_of_mem h (by simp [opcodeMap])

theorem decodeOpcode_ldaAbsY {cfg : Config} (h : cfg.wf = true) : decodeOpcode cfg cfg.opcLdaAbsY = .lda .absy :=
  decodeOpcode_of_mem h (by simp [opcodeMap])

theorem decodeOpcode_jsr {cfg : Config} (h : cfg.wf = true) : decodeOpcode cfg cfg.opcJsr = .jsr :=
  decodeOpcode_of_mem h (by simp [opcodeMap])

/-- Under any parameters the decoder answers unknown exactly on the bytes that name no instruction. -/
theorem decodeOpcode_eq_unknown_iff (cfg : Config) (k : Byte) :
    decodeOpcode cfg k = .unknown ↔ k ∉ cfg.opcodeBytes := by
  rw [← opcodeMap_keys]
  have hno : (k, Opcode.unknown) ∉ opcodeMap cfg := by
    cases h : cfg.opcLdaZpY <;> simp [opcodeMap, h]
  constructor
  · intro hu
    rcases lookupOpcode_cases (opcodeMap cfg) k with h | h
    · exact h.1
    · rw [show lookupOpcode (opcodeMap cfg) k = .unknown from hu] at h
      exact absurd h hno
  · intro hk
    rcases lookupOpcode_cases (opcodeMap cfg) k with h | h
    · exact h.2
    · exact absurd (List.mem_map.2 ⟨_, h, rfl⟩) hk

/-- What a decoded opcode says of its byte: the inversion of the decoder. -/
theorem decodeOpcode_cases (cfg : Config) (k : Byte) :
    (decodeOpcode cfg k = .lda .imm ∧ k = Config.opcLdaImm) ∨
    (decodeOpcode cfg k = .lda .zp ∧ k = cfg.opcLdaZp) ∨
    (decodeOpcode cfg k = .lda .zpx ∧ k = cfg.opcLdaZpX) ∨
    (decodeOpcode cfg k = .lda .zpy ∧ cfg.opcLdaZpY = some k) ∨
    (decodeOpcode cfg k = .lda .abs ∧ k = cfg.opcLdaAbs) ∨
    (decodeOpcode cfg k = .lda .absx ∧ k = Config.opcLdaAbsX) ∨
    (decodeOpcode cfg k = .lda .absy ∧ k = cfg.opcLdaAbsY) ∨
    (decodeOpcode cfg k = .jsr ∧ k = cfg.opcJsr) ∨
    (decodeOpcode cfg k = .unknown ∧ k ∉ cfg.opcodeBytes) := by
  rcases lookupOpcode_cases (opcodeMap cfg) k with h | h
  · have hu : decodeOpcode cfg k = .unknown := h.2
    simp [hu, (decodeOpcode_eq_unknown_iff cfg k).1 hu]
  · change (k, decodeOpcode cfg k) ∈ opcodeMap cfg at h
    cases hz : cfg.opcLdaZpY <;> simp [opcodeMap, hz] at h <;> grind

@[simp] theorem assemble_opcode (o : Opcode) (op : Byte) (w : Word) : (assemble o op w).opcode = o := by
  rcases o with (_ | _ | _ | _ | _ | _ | _) | _ | _ <;> rfl

@[simp] theorem assemble_length (o : Opcode) (op : Byte) (w : Word) :
    (assemble o op w).length = o.format.length := by
  simp [Instr.length]

end Sys2Proof
end

