-- ==== Sys2Proof/Laws/Memory.lean ====
section
/-! SUPPORT. The laws of memory: a read after a write, and that every memory operation keeps the canonical form. -/

namespace Sys2Proof.Machine

theorem Memory.read_erase (m : Memory) (n k : Nat) :
    (m.erase n).read k = if k = n then unlistedByte else m.read k := by
  induction m with
  | nil => simp [Memory.erase, Memory.read]
  | cons cell rest ih =>
    obtain ⟨p, w⟩ := cell
    simp only [Memory.erase, Memory.read]
    split
    · subst_vars
      rw [ih]
      split
      · rfl
      · rw [if_neg (by omega)]
    · simp only [Memory.read, ih]
      split <;> split <;> first | rfl | omega

theorem Memory.read_insert_erase (m : Memory) (n k : Nat) (w : Byte) :
    ((m.erase n).insert n w).read k = if k = n then w else m.read k := by
  induction m with
  | nil =>
    simp only [Memory.erase, Memory.insert, Memory.read]
    split <;> split <;> first | rfl | omega
  | cons cell rest ih =>
    obtain ⟨p, u⟩ := cell
    by_cases hp : p = n
    · subst hp
      simp only [Memory.erase, if_true, ih, Memory.read]
      split
      · rfl
      · rw [if_neg (by omega)]
    · simp only [Memory.erase, if_neg hp, Memory.insert]
      split
      · simp only [Memory.read, Memory.read_erase]
        split <;> split <;> (try split) <;> first | rfl | omega
      · simp only [Memory.read, ih]
        split <;> split <;> first | rfl | omega

/-- Reading after a write: the value written at its address, every other address as before. Holds of any list of cells. -/
@[simp] theorem Memory.read_write (m : Memory) (n k : Nat) (w : Byte) :
    (m.write n w).read k = if k = n then w else m.read k := by
  unfold Memory.write
  split
  · subst_vars
    exact Memory.read_erase m n k
  · exact Memory.read_insert_erase m n k w

theorem Memory.wfFrom_mono {m : Memory} {low low' : Nat} (h : low' ≤ low) (hm : m.wfFrom low = true) :
    m.wfFrom low' = true := by
  cases m with
  | nil => rfl
  | cons cell rest =>
    obtain ⟨p, w⟩ := cell
    simp only [Memory.wfFrom, Bool.and_eq_true, decide_eq_true_eq] at hm ⊢
    exact ⟨⟨⟨by omega, hm.1.1.2⟩, hm.1.2⟩, hm.2⟩

/-- Below its first listed address a memory in canonical form reads as unlisted. -/
theorem Memory.read_of_lt_wfFrom {m : Memory} {low n : Nat} (hm : m.wfFrom low = true) (hn : n < low) :
    m.read n = unlistedByte := by
  induction m generalizing low with
  | nil => rfl
  | cons cell rest ih =>
    obtain ⟨p, w⟩ := cell
    simp only [Memory.wfFrom, Bool.and_eq_true, decide_eq_true_eq] at hm
    rw [Memory.read, if_neg (by omega), ih hm.2 (by omega)]

theorem Memory.erase_wfFrom {m : Memory} {low : Nat} (n : Nat) (hm : m.wfFrom low = true) :
    (m.erase n).wfFrom low = true := by
  induction m generalizing low with
  | nil => rfl
  | cons cell rest ih =>
    obtain ⟨p, w⟩ := cell
    simp only [Memory.wfFrom, Bool.and_eq_true, decide_eq_true_eq] at hm
    simp only [Memory.erase]
    split
    · exact Memory.wfFrom_mono (by omega) (ih hm.2)
    · simp only [Memory.wfFrom, Bool.and_eq_true, decide_eq_true_eq]
      exact ⟨hm.1, ih hm.2⟩

/-- No cell of an erased list is at the erased address. -/
theorem Memory.not_mem_erase (m : Memory) (n : Nat) (w : Byte) : (n, w) ∉ m.erase n := by
  induction m with
  | nil => simp [Memory.erase]
  | cons cell rest ih =>
    obtain ⟨p, u⟩ := cell
    simp only [Memory.erase]
    split
    · exact ih
    · simp only [List.mem_cons, Prod.mk.injEq, not_or, not_and]
      exact ⟨fun h => absurd h.symm ‹_›, ih⟩

theorem Memory.insert_wfFrom {m : Memory} {low n : Nat} {w : Byte} (hm : m.wfFrom low = true)
    (hfree : ∀ u, (n, u) ∉ m) (hlow : low ≤ n) (hn : n < 65536) (hw : w ≠ unlistedByte) :
    (m.insert n w).wfFrom low = true := by
  induction m generalizing low with
  | nil => simp [Memory.insert, Memory.wfFrom, hlow, hn, hw]
  | cons cell rest ih =>
    obtain ⟨p, u⟩ := cell
    simp only [Memory.wfFrom, Bool.and_eq_true, decide_eq_true_eq] at hm
    have hne : n ≠ p := fun h => hfree u (by simp [h])
    simp only [Memory.insert]
    split
    · simp only [Memory.wfFrom, Bool.and_eq_true, decide_eq_true_eq]
      exact ⟨⟨⟨hlow, hn⟩, hw⟩, ⟨⟨⟨by omega, hm.1.1.2⟩, hm.1.2⟩, hm.2⟩⟩
    · simp only [Memory.wfFrom, Bool.and_eq_true, decide_eq_true_eq]
      exact ⟨hm.1, ih hm.2 (fun v hv => hfree v (List.mem_cons_of_mem _ hv)) (by omega)⟩

/-- A store inside the 65,536 bytes keeps the canonical form. -/
theorem Memory.write_wf {m : Memory} {n : Nat} (w : Byte) (hm : m.wf = true) (hn : n < 65536) :
    (m.write n w).wf = true := by
  unfold Memory.write
  split
  · exact Memory.erase_wfFrom n hm
  · exact Memory.insert_wfFrom (Memory.erase_wfFrom n hm) (Memory.not_mem_erase m n) (Nat.zero_le n) hn ‹_›

theorem memWrite_wf (a : Word) (w : Byte) {s : State} (h : s.mem.wf = true) : (memWrite a w s).mem.wf = true :=
  Memory.write_wf w h a.isLt

theorem writeWord_wf (a w : Word) {s : State} (h : s.mem.wf = true) : (writeWord a w s).mem.wf = true :=
  memWrite_wf _ _ (memWrite_wf _ _ h)

theorem loadBytes_wf (a : Word) (bs : List Byte) {s : State} (h : s.mem.wf = true) :
    (loadBytes a bs s).mem.wf = true := by
  induction bs generalizing a s with
  | nil => exact h
  | cons v rest ih => exact ih _ (memWrite_wf a v h)

end Sys2Proof.Machine
end

