-- ==== Sys2Proof/Laws/State.lean ====
section
/-! SUPPORT. One lemma per field per update of the state, so that no later proof unfolds a record update. -/

namespace Sys2Proof.Machine

variable (s : State)

@[simp] theorem charge_pc (k : Nat) : (charge k s).pc = s.pc := rfl
@[simp] theorem charge_sLow (k : Nat) : (charge k s).sLow = s.sLow := rfl
@[simp] theorem charge_spHigh (k : Nat) : (charge k s).spHigh = s.spHigh := rfl
@[simp] theorem charge_a (k : Nat) : (charge k s).a = s.a := rfl
@[simp] theorem charge_x (k : Nat) : (charge k s).x = s.x := rfl
@[simp] theorem charge_y (k : Nat) : (charge k s).y = s.y := rfl
@[simp] theorem charge_c (k : Nat) : (charge k s).c = s.c := rfl
@[simp] theorem charge_z (k : Nat) : (charge k s).z = s.z := rfl
@[simp] theorem charge_i (k : Nat) : (charge k s).i = s.i := rfl
@[simp] theorem charge_d (k : Nat) : (charge k s).d = s.d := rfl
@[simp] theorem charge_b (k : Nat) : (charge k s).b = s.b := rfl
@[simp] theorem charge_v (k : Nat) : (charge k s).v = s.v := rfl
@[simp] theorem charge_n (k : Nat) : (charge k s).n = s.n := rfl
@[simp] theorem charge_cyc (k : Nat) : (charge k s).cyc = s.cyc - (k : Int) := rfl
@[simp] theorem charge_budget (k : Nat) : (charge k s).budget = s.budget := rfl
@[simp] theorem charge_diag (k : Nat) : (charge k s).diag = s.diag := rfl
@[simp] theorem charge_status (k : Nat) : (charge k s).status = s.status := rfl
@[simp] theorem charge_mem (k : Nat) : (charge k s).mem = s.mem := rfl
@[simp] theorem charge_cfg (k : Nat) : (charge k s).cfg = s.cfg := rfl

@[simp] theorem memWrite_pc (p : Word) (w : Byte) : (memWrite p w s).pc = s.pc := rfl
@[simp] theorem memWrite_sLow (p : Word) (w : Byte) : (memWrite p w s).sLow = s.sLow := rfl
@[simp] theorem memWrite_spHigh (p : Word) (w : Byte) : (memWrite p w s).spHigh = s.spHigh := rfl
@[simp] theorem memWrite_a (p : Word) (w : Byte) : (memWrite p w s).a = s.a := rfl
@[simp] theorem memWrite_x (p : Word) (w : Byte) : (memWrite p w s).x = s.x := rfl
@[simp] theorem memWrite_y (p : Word) (w : Byte) : (memWrite p w s).y = s.y := rfl
@[simp] theorem memWrite_c (p : Word) (w : Byte) : (memWrite p w s).c = s.c := rfl
@[simp] theorem memWrite_z (p : Word) (w : Byte) : (memWrite p w s).z = s.z := rfl
@[simp] theorem memWrite_i (p : Word) (w : Byte) : (memWrite p w s).i = s.i := rfl
@[simp] theorem memWrite_d (p : Word) (w : Byte) : (memWrite p w s).d = s.d := rfl
@[simp] theorem memWrite_b (p : Word) (w : Byte) : (memWrite p w s).b = s.b := rfl
@[simp] theorem memWrite_v (p : Word) (w : Byte) : (memWrite p w s).v = s.v := rfl
@[simp] theorem memWrite_n (p : Word) (w : Byte) : (memWrite p w s).n = s.n := rfl
@[simp] theorem memWrite_cyc (p : Word) (w : Byte) : (memWrite p w s).cyc = s.cyc := rfl
@[simp] theorem memWrite_budget (p : Word) (w : Byte) : (memWrite p w s).budget = s.budget := rfl
@[simp] theorem memWrite_diag (p : Word) (w : Byte) : (memWrite p w s).diag = s.diag := rfl
@[simp] theorem memWrite_status (p : Word) (w : Byte) : (memWrite p w s).status = s.status := rfl
@[simp] theorem memWrite_mem (p : Word) (w : Byte) : (memWrite p w s).mem = s.mem.write p.toNat w := rfl
@[simp] theorem memWrite_cfg (p : Word) (w : Byte) : (memWrite p w s).cfg = s.cfg := rfl

@[simp] theorem setPc_pc (w : Word) : (s.setPc w).pc = w := rfl
@[simp] theorem setPc_sLow (w : Word) : (s.setPc w).sLow = s.sLow := rfl
@[simp] theorem setPc_spHigh (w : Word) : (s.setPc w).spHigh = s.spHigh := rfl
@[simp] theorem setPc_a (w : Word) : (s.setPc w).a = s.a := rfl
@[simp] theorem setPc_x (w : Word) : (s.setPc w).x = s.x := rfl
@[simp] theorem setPc_y (w : Word) : (s.setPc w).y = s.y := rfl
@[simp] theorem setPc_c (w : Word) : (s.setPc w).c = s.c := rfl
@[simp] theorem setPc_z (w : Word) : (s.setPc w).z = s.z := rfl
@[simp] theorem setPc_i (w : Word) : (s.setPc w).i = s.i := rfl
@[simp] theorem setPc_d (w : Word) : (s.setPc w).d = s.d := rfl
@[simp] theorem setPc_b (w : Word) : (s.setPc w).b = s.b := rfl
@[simp] theorem setPc_v (w : Word) : (s.setPc w).v = s.v := rfl
@[simp] theorem setPc_n (w : Word) : (s.setPc w).n = s.n := rfl
@[simp] theorem setPc_cyc (w : Word) : (s.setPc w).cyc = s.cyc := rfl
@[simp] theorem setPc_budget (w : Word) : (s.setPc w).budget = s.budget := rfl
@[simp] theorem setPc_diag (w : Word) : (s.setPc w).diag = s.diag := rfl
@[simp] theorem setPc_status (w : Word) : (s.setPc w).status = s.status := rfl
@[simp] theorem setPc_mem (w : Word) : (s.setPc w).mem = s.mem := rfl
@[simp] theorem setPc_cfg (w : Word) : (s.setPc w).cfg = s.cfg := rfl

@[simp] theorem report_pc (op : Byte) : (report op s).pc = s.pc := rfl
@[simp] theorem report_sLow (op : Byte) : (report op s).sLow = s.sLow := rfl
@[simp] theorem report_spHigh (op : Byte) : (report op s).spHigh = s.spHigh := rfl
@[simp] theorem report_a (op : Byte) : (report op s).a = s.a := rfl
@[simp] theorem report_x (op : Byte) : (report op s).x = s.x := rfl
@[simp] theorem report_y (op : Byte) : (report op s).y = s.y := rfl
@[simp] theorem report_c (op : Byte) : (report op s).c = s.c := rfl
@[simp] theorem report_z (op : Byte) : (report op s).z = s.z := rfl
@[simp] theorem report_i (op : Byte) : (report op s).i = s.i := rfl
@[simp] theorem report_d (op : Byte) : (report op s).d = s.d := rfl
@[simp] theorem report_b (op : Byte) : (report op s).b = s.b := rfl
@[simp] theorem report_v (op : Byte) : (report op s).v = s.v := rfl
@[simp] theorem report_n (op : Byte) : (report op s).n = s.n := rfl
@[simp] theorem report_cyc (op : Byte) : (report op s).cyc = s.cyc := rfl
@[simp] theorem report_budget (op : Byte) : (report op s).budget = s.budget := rfl
@[simp] theorem report_diag (op : Byte) : (report op s).diag = s.diag ++ [op] := rfl
@[simp] theorem report_status (op : Byte) : (report op s).status = s.status := rfl
@[simp] theorem report_mem (op : Byte) : (report op s).mem = s.mem := rfl
@[simp] theorem report_cfg (op : Byte) : (report op s).cfg = s.cfg := rfl

@[simp] theorem loadAccumulator_pc (w : Byte) : (loadAccumulator w s).pc = s.pc := rfl
@[simp] theorem loadAccumulator_sLow (w : Byte) : (loadAccumulator w s).sLow = s.sLow := rfl
@[simp] theorem loadAccumulator_spHigh (w : Byte) : (loadAccumulator w s).spHigh = s.spHigh := rfl
@[simp] theorem loadAccumulator_a (w : Byte) : (loadAccumulator w s).a = w := rfl
@[simp] theorem loadAccumulator_x (w : Byte) : (loadAccumulator w s).x = s.x := rfl
@[simp] theorem loadAccumulator_y (w : Byte) : (loadAccumulator w s).y = s.y := rfl
@[simp] theorem loadAccumulator_c (w : Byte) : (loadAccumulator w s).c = s.c := rfl
@[simp] theorem loadAccumulator_z (w : Byte) : (loadAccumulator w s).z = iszero w := rfl
@[simp] theorem loadAccumulator_i (w : Byte) : (loadAccumulator w s).i = s.i := rfl
@[simp] theorem loadAccumulator_d (w : Byte) : (loadAccumulator w s).d = s.d := rfl
@[simp] theorem loadAccumulator_b (w : Byte) : (loadAccumulator w s).b = s.b := rfl
@[simp] theorem loadAccumulator_v (w : Byte) : (loadAccumulator w s).v = s.v := rfl
@[simp] theorem loadAccumulator_n (w : Byte) : (loadAccumulator w s).n = isneg w := rfl
@[simp] theorem loadAccumulator_cyc (w : Byte) : (loadAccumulator w s).cyc = s.cyc := rfl
@[simp] theorem loadAccumulator_budget (w : Byte) : (loadAccumulator w s).budget = s.budget := rfl
@[simp] theorem loadAccumulator_diag (w : Byte) : (loadAccumulator w s).diag = s.diag := rfl
@[simp] theorem loadAccumulator_status (w : Byte) : (loadAccumulator w s).status = s.status := rfl
@[simp] theorem loadAccumulator_mem (w : Byte) : (loadAccumulator w s).mem = s.mem := rfl
@[simp] theorem loadAccumulator_cfg (w : Byte) : (loadAccumulator w s).cfg = s.cfg := rfl

@[simp] theorem beginExecute_pc (k : Int) : (beginExecute k s).pc = s.pc := rfl
@[simp] theorem beginExecute_sLow (k : Int) : (beginExecute k s).sLow = s.sLow := rfl
@[simp] theorem beginExecute_spHigh (k : Int) : (beginExecute k s).spHigh = s.spHigh := rfl
@[simp] theorem beginExecute_a (k : Int) : (beginExecute k s).a = s.a := rfl
@[simp] theorem beginExecute_x (k : Int) : (beginExecute k s).x = s.x := rfl
@[simp] theorem beginExecute_y (k : Int) : (beginExecute k s).y = s.y := rfl
@[simp] theorem beginExecute_c (k : Int) : (beginExecute k s).c = s.c := rfl
@[simp] theorem beginExecute_z (k : Int) : (beginExecute k s).z = s.z := rfl
@[simp] theorem beginExecute_i (k : Int) : (beginExecute k s).i = s.i := rfl
@[simp] theorem beginExecute_d (k : Int) : (beginExecute k s).d = s.d := rfl
@[simp] theorem beginExecute_b (k : Int) : (beginExecute k s).b = s.b := rfl
@[simp] theorem beginExecute_v (k : Int) : (beginExecute k s).v = s.v := rfl
@[simp] theorem beginExecute_n (k : Int) : (beginExecute k s).n = s.n := rfl
@[simp] theorem beginExecute_cyc (k : Int) : (beginExecute k s).cyc = k := rfl
@[simp] theorem beginExecute_budget (k : Int) : (beginExecute k s).budget = k := rfl
@[simp] theorem beginExecute_diag (k : Int) : (beginExecute k s).diag = [] := rfl
@[simp] theorem beginExecute_status (k : Int) : (beginExecute k s).status = s.status := rfl
@[simp] theorem beginExecute_mem (k : Int) : (beginExecute k s).mem = s.mem := rfl
@[simp] theorem beginExecute_cfg (k : Int) : (beginExecute k s).cfg = s.cfg := rfl

@[simp] theorem fetched_pc (len : Nat) : (s.fetched len).pc = BitVec.ofNat 16 (s.pc.toNat + len) := rfl
@[simp] theorem fetched_sLow (len : Nat) : (s.fetched len).sLow = s.sLow := rfl
@[simp] theorem fetched_spHigh (len : Nat) : (s.fetched len).spHigh = s.spHigh := rfl
@[simp] theorem fetched_a (len : Nat) : (s.fetched len).a = s.a := rfl
@[simp] theorem fetched_x (len : Nat) : (s.fetched len).x = s.x := rfl
@[simp] theorem fetched_y (len : Nat) : (s.fetched len).y = s.y := rfl
@[simp] theorem fetched_c (len : Nat) : (s.fetched len).c = s.c := rfl
@[simp] theorem fetched_z (len : Nat) : (s.fetched len).z = s.z := rfl
@[simp] theorem fetched_i (len : Nat) : (s.fetched len).i = s.i := rfl
@[simp] theorem fetched_d (len : Nat) : (s.fetched len).d = s.d := rfl
@[simp] theorem fetched_b (len : Nat) : (s.fetched len).b = s.b := rfl
@[simp] theorem fetched_v (len : Nat) : (s.fetched len).v = s.v := rfl
@[simp] theorem fetched_n (len : Nat) : (s.fetched len).n = s.n := rfl
@[simp] theorem fetched_cyc (len : Nat) : (s.fetched len).cyc = s.cyc - (len : Int) := rfl
@[simp] theorem fetched_budget (len : Nat) : (s.fetched len).budget = s.budget := rfl
@[simp] theorem fetched_diag (len : Nat) : (s.fetched len).diag = s.diag := rfl
@[simp] theorem fetched_status (len : Nat) : (s.fetched len).status = s.status := rfl
@[simp] theorem fetched_mem (len : Nat) : (s.fetched len).mem = s.mem := rfl
@[simp] theorem fetched_cfg (len : Nat) : (s.fetched len).cfg = s.cfg := rfl

@[simp] theorem afterLoad_pc (w : Byte) (len k : Nat) :
    (s.afterLoad w len k).pc = BitVec.ofNat 16 (s.pc.toNat + len) := rfl
@[simp] theorem afterLoad_sLow (w : Byte) (len k : Nat) : (s.afterLoad w len k).sLow = s.sLow := rfl
@[simp] theorem afterLoad_spHigh (w : Byte) (len k : Nat) : (s.afterLoad w len k).spHigh = s.spHigh := rfl
@[simp] theorem afterLoad_a (w : Byte) (len k : Nat) : (s.afterLoad w len k).a = w := rfl
@[simp] theorem afterLoad_x (w : Byte) (len k : Nat) : (s.afterLoad w len k).x = s.x := rfl
@[simp] theorem afterLoad_y (w : Byte) (len k : Nat) : (s.afterLoad w len k).y = s.y := rfl
@[simp] theorem afterLoad_c (w : Byte) (len k : Nat) : (s.afterLoad w len k).c = s.c := rfl
@[simp] theorem afterLoad_z (w : Byte) (len k : Nat) : (s.afterLoad w len k).z = decide (w = 0) := rfl
@[simp] theorem afterLoad_i (w : Byte) (len k : Nat) : (s.afterLoad w len k).i = s.i := rfl
@[simp] theorem afterLoad_d (w : Byte) (len k : Nat) : (s.afterLoad w len k).d = s.d := rfl
@[simp] theorem afterLoad_b (w : Byte) (len k : Nat) : (s.afterLoad w len k).b = s.b := rfl
@[simp] theorem afterLoad_v (w : Byte) (len k : Nat) : (s.afterLoad w len k).v = s.v := rfl
@[simp] theorem afterLoad_n (w : Byte) (len k : Nat) : (s.afterLoad w len k).n = decide (128 ≤ w.toNat) := rfl
@[simp] theorem afterLoad_cyc (w : Byte) (len k : Nat) : (s.afterLoad w len k).cyc = s.cyc - (k : Int) := rfl
@[simp] theorem afterLoad_budget (w : Byte) (len k : Nat) : (s.afterLoad w len k).budget = s.budget := rfl
@[simp] theorem afterLoad_diag (w : Byte) (len k : Nat) : (s.afterLoad w len k).diag = s.diag := rfl
@[simp] theorem afterLoad_status (w : Byte) (len k : Nat) : (s.afterLoad w len k).status = s.status := rfl
@[simp] theorem afterLoad_mem (w : Byte) (len k : Nat) : (s.afterLoad w len k).mem = s.mem := rfl
@[simp] theorem afterLoad_cfg (w : Byte) (len k : Nat) : (s.afterLoad w len k).cfg = s.cfg := rfl

@[simp] theorem setSp_pc (w : Word) : (s.setSp w).pc = s.pc := by unfold State.setSp; split <;> rfl
@[simp] theorem setSp_a (w : Word) : (s.setSp w).a = s.a := by unfold State.setSp; split <;> rfl
@[simp] theorem setSp_x (w : Word) : (s.setSp w).x = s.x := by unfold State.setSp; split <;> rfl
@[simp] theorem setSp_y (w : Word) : (s.setSp w).y = s.y := by unfold State.setSp; split <;> rfl
@[simp] theorem setSp_c (w : Word) : (s.setSp w).c = s.c := by unfold State.setSp; split <;> rfl
@[simp] theorem setSp_z (w : Word) : (s.setSp w).z = s.z := by unfold State.setSp; split <;> rfl
@[simp] theorem setSp_i (w : Word) : (s.setSp w).i = s.i := by unfold State.setSp; split <;> rfl
@[simp] theorem setSp_d (w : Word) : (s.setSp w).d = s.d := by unfold State.setSp; split <;> rfl
@[simp] theorem setSp_b (w : Word) : (s.setSp w).b = s.b := by unfold State.setSp; split <;> rfl
@[simp] theorem setSp_v (w : Word) : (s.setSp w).v = s.v := by unfold State.setSp; split <;> rfl
@[simp] theorem setSp_n (w : Word) : (s.setSp w).n = s.n := by unfold State.setSp; split <;> rfl
@[simp] theorem setSp_cyc (w : Word) : (s.setSp w).cyc = s.cyc := by unfold State.setSp; split <;> rfl
@[simp] theorem setSp_budget (w : Word) : (s.setSp w).budget = s.budget := by unfold State.setSp; split <;> rfl
@[simp] theorem setSp_diag (w : Word) : (s.setSp w).diag = s.diag := by unfold State.setSp; split <;> rfl
@[simp] theorem setSp_status (w : Word) : (s.setSp w).status = s.status := by unfold State.setSp; split <;> rfl
@[simp] theorem setSp_mem (w : Word) : (s.setSp w).mem = s.mem := by unfold State.setSp; split <;> rfl
@[simp] theorem setSp_cfg (w : Word) : (s.setSp w).cfg = s.cfg := by unfold State.setSp; split <;> rfl

@[simp] theorem advanceSp_pc : (advanceSp s).pc = s.pc := by unfold advanceSp; split <;> simp
@[simp] theorem advanceSp_a : (advanceSp s).a = s.a := by unfold advanceSp; split <;> simp
@[simp] theorem advanceSp_x : (advanceSp s).x = s.x := by unfold advanceSp; split <;> simp
@[simp] theorem advanceSp_y : (advanceSp s).y = s.y := by unfold advanceSp; split <;> simp
@[simp] theorem advanceSp_c : (advanceSp s).c = s.c := by unfold advanceSp; split <;> simp
@[simp] theorem advanceSp_z : (advanceSp s).z = s.z := by unfold advanceSp; split <;> simp
@[simp] theorem advanceSp_i : (advanceSp s).i = s.i := by unfold advanceSp; split <;> simp
@[simp] theorem advanceSp_d : (advanceSp s).d = s.d := by unfold advanceSp; split <;> simp
@[simp] theorem advanceSp_b : (advanceSp s).b = s.b := by unfold advanceSp; split <;> simp
@[simp] theorem advanceSp_v : (advanceSp s).v = s.v := by unfold advanceSp; split <;> simp
@[simp] theorem advanceSp_n : (advanceSp s).n = s.n := by unfold advanceSp; split <;> simp
@[simp] theorem advanceSp_cyc : (advanceSp s).cyc = s.cyc := by unfold advanceSp; split <;> simp
@[simp] theorem advanceSp_budget : (advanceSp s).budget = s.budget := by unfold advanceSp; split <;> simp
@[simp] theorem advanceSp_diag : (advanceSp s).diag = s.diag := by unfold advanceSp; split <;> simp
@[simp] theorem advanceSp_status : (advanceSp s).status = s.status := by unfold advanceSp; split <;> simp
@[simp] theorem advanceSp_mem : (advanceSp s).mem = s.mem := by unfold advanceSp; split <;> simp
@[simp] theorem advanceSp_cfg : (advanceSp s).cfg = s.cfg := by unfold advanceSp; split <;> simp

end Sys2Proof.Machine
end

