-- ==== Sys2Proof/Laws/Ops.lean ====
section
/-! SUPPORT. One lemma per shared operation that says everything it does, in the terms of Safety.lean. -/

namespace Sys2Proof.Machine

variable (s : State)

/-! ## Memory port -/

@[simp] theorem byteAt_mod (n : Nat) : s.byteAt (n % 65536) = s.byteAt n := by
  simp [State.byteAt]

@[simp] theorem byteAt_mod_add (n k : Nat) : s.byteAt (n % 65536 + k) = s.byteAt (n + k) := by
  rw [State.byteAt, State.byteAt, Nat.mod_add_mod]

theorem memRead_eq (p : Word) : memRead p s = s.byteAt p.toNat := by
  have := p.isLt
  rw [memRead, State.byteAt, Nat.mod_eq_of_lt this]

theorem memRead_inc16 (p : Word) : memRead (inc16 p) s = s.byteAt (p.toNat + 1) := by
  rw [memRead_eq, inc16_toNat, byteAt_mod]

/-- Two states with the same memory show the same bytes. -/
theorem byteAt_congr {s t : State} (h : t.mem = s.mem) (n : Nat) : t.byteAt n = s.byteAt n := by
  rw [State.byteAt, State.byteAt, h]

theorem read_memWrite (p : Word) (w : Byte) (n : Nat) :
    (memWrite p w s).mem.read n = if n = p.toNat then w else s.mem.read n := by
  simp

/-- `WriteWord` stores its two bytes and changes no other. -/
theorem read_writeWord (p w : Word) (n : Nat) :
    (writeWord p w s).mem.read n =
      if n = (p.toNat + 1) % 65536 then hi w else if n = p.toNat then lo w else s.mem.read n := by
  simp [writeWord]

theorem byteAt_writeWord_low (p w : Word) : (writeWord p w s).byteAt p.toNat = lo w := by
  have := p.isLt
  rw [State.byteAt, read_writeWord, if_neg (by omega), if_pos (by omega)]

theorem byteAt_writeWord_high (p w : Word) : (writeWord p w s).byteAt (p.toNat + 1) = hi w := by
  rw [State.byteAt, read_writeWord, if_pos rfl]

/-- Of the state other than memory, `WriteWord` writes the counter only. -/
theorem writeWord_eq (p w : Word) :
    writeWord p w s = { s with mem := (writeWord p w s).mem, cyc := s.cyc - 2 } := rfl

/-! ## Fetch unit -/

theorem inc16_eq_ofNat (p : Word) : inc16 p = BitVec.ofNat 16 (p.toNat + 1) := by
  apply BitVec.eq_of_toNat_eq
  simp

theorem fetchByte_eq : fetchByte s = (s.byteAt s.pc.toNat, s.fetched 1) := by
  simp only [fetchByte, memRead_eq, inc16_eq_ofNat]
  rfl

theorem ofNat_toNat_add (p k l : Nat) :
    BitVec.ofNat 16 ((BitVec.ofNat 16 (p + k)).toNat + l) = BitVec.ofNat 16 (p + (k + l)) := by
  apply BitVec.eq_of_toNat_eq
  simp only [BitVec.toNat_ofNat]
  omega

theorem fetched_fetched (k l : Nat) : (s.fetched k).fetched l = s.fetched (k + l) := by
  simp only [State.fetched, ofNat_toNat_add, State.mk.injEq, true_and, and_true]
  omega

@[simp] theorem byteAt_fetched (k n : Nat) : (s.fetched k).byteAt n = s.byteAt n := rfl

@[simp] theorem fetched_zero : s.fetched 0 = s := by
  ext1 <;> simp [State.fetched]

theorem fetchWord_eq :
    fetchWord s = (join (s.byteAt (s.pc.toNat + 1)) (s.byteAt s.pc.toNat), s.fetched 2) := by
  simp [fetchWord, fetchByte_eq, fetched_fetched]

theorem join_byteAt_toNat (n : Nat) : (join (s.byteAt (n + 1)) (s.byteAt n)).toNat = s.wordAt n := by
  rw [join_toNat, State.wordAt]
  omega

theorem wordAt_lt (n : Nat) : s.wordAt n < 65536 := by
  have := (s.byteAt n).isLt
  have := (s.byteAt (n + 1)).isLt
  rw [State.wordAt]
  omega

theorem join_byteAt_eq (n : Nat) : join (s.byteAt (n + 1)) (s.byteAt n) = BitVec.ofNat 16 (s.wordAt n) := by
  apply BitVec.eq_of_toNat_eq
  have := wordAt_lt s n
  rw [join_byteAt_toNat, BitVec.toNat_ofNat, Nat.mod_eq_of_lt this]

/-- The word of a three-byte instruction whose opcode has been fetched. -/
theorem fetchWord_fetched_one : (fetchWord (s.fetched 1)).1 = BitVec.ofNat 16 (s.wordAt (s.pc.toNat + 1)) := by
  rw [fetchWord_eq, ← join_byteAt_eq]
  simp

/-- The operand byte of a two-byte instruction whose opcode has been fetched. -/
theorem fetchByte_fetched_one : (fetchByte (s.fetched 1)).1 = s.byteAt (s.pc.toNat + 1) := by
  rw [fetchByte_eq]
  simp

/-- Fetching an instruction advances PC by its length and charges one cycle a byte, and nothing else. -/
theorem fetchInstr_snd : (fetchInstr s).2 = s.fetched (fetchInstr s).1.length := by
  simp only [fetchInstr, assemble_length, fetchByte_eq]
  cases (decodeOpcode s.cfg (s.byteAt s.pc.toNat)).format <;>
    simp [fetchOperand, fetchByte_eq, fetchWord_eq, fetched_fetched, Format.length]

/-- The instruction fetched is the one the decoder reads from the bytes at PC. -/
theorem fetchInstr_decode : ∃ rest, decode s.cfg s.window = .ok ((fetchInstr s).1, rest) := by
  simp only [fetchInstr, fetchByte_eq, decode, State.window]
  cases (decodeOpcode s.cfg (s.byteAt s.pc.toNat)).format <;>
    simp [fetchOperand, fetchByte_eq, fetchWord_eq, takeOperand]

/-- The instruction fetched, once its opcode byte is decoded. -/
theorem fetchInstr_fst {o : Opcode} (h : decodeOpcode s.cfg (s.byteAt s.pc.toNat) = o) :
    (fetchInstr s).1 = assemble o (s.byteAt s.pc.toNat) (fetchOperand o.format (s.fetched 1)).1 := by
  simp [fetchInstr, fetchByte_eq, h]

theorem fetchInstr_opcode : (fetchInstr s).1.opcode = decodeOpcode s.cfg (s.byteAt s.pc.toNat) := by
  rw [fetchInstr_fst s rfl, assemble_opcode]

/-! ## Loads -/

/-- A load of a byte, after `k` cycles of index work. -/
theorem loadAccumulator_charge (w : Byte) (k : Nat) : loadAccumulator w (charge k s) = s.afterLoad w 0 k := by
  ext1 <;> simp [State.afterLoad]

theorem loadAccumulator_eq (w : Byte) : loadAccumulator w s = s.afterLoad w 0 0 := by
  ext1 <;> simp [State.afterLoad]

theorem charge_charge (k l : Nat) : charge l (charge k s) = charge (k + l) s := by
  ext1 <;> simp
  omega

theorem memRead_charge (p : Word) (k : Nat) : memRead p (charge k s) = memRead p s := rfl

theorem loadFrom_eq (p : Word) : loadFrom p s = s.afterLoad (s.byteAt p.toNat) 0 1 := by
  simp [loadFrom, readByte, memRead_eq, loadAccumulator_charge]

theorem loadFrom_charge (p : Word) (k : Nat) :
    loadFrom p (charge k s) = s.afterLoad (s.byteAt p.toNat) 0 (k + 1) := by
  rw [loadFrom, readByte, memRead_charge, memRead_eq, charge_charge, loadAccumulator_charge]

/-- A load entered after its instruction was fetched, counted from before the fetch. -/
theorem fetched_afterLoad (w : Byte) (len k : Nat) :
    (s.fetched len).afterLoad w 0 k = s.afterLoad w len (len + k) := by
  simp only [State.fetched, State.afterLoad, ofNat_toNat_add]
  simp only [State.mk.injEq, true_and, and_true, Nat.add_zero]
  omega

/-- A page crossing is a carry out of the low byte. -/
theorem pagecross_absindex (w : Word) (r : Byte) :
    pagecross w (absindex w r) = decide (256 ≤ w.toNat % 256 + r.toNat) := by
  have := w.isLt
  have := r.isLt
  simp only [pagecross, decide_eq_decide, ne_eq, ← BitVec.toNat_inj, hi_toNat, absindex_toNat]
  omega

theorem chargeCross_absindex (w : Word) (r : Byte) :
    chargeCross w (absindex w r) s = charge (if 256 ≤ w.toNat % 256 + r.toNat then 1 else 0) s := by
  simp only [chargeCross, pagecross_absindex, decide_eq_true_eq]
  split
  · rfl
  · ext <;> simp

/-! ## Effective addresses as numbers -/

theorem zext16_eq (b : Byte) : zext16 b = BitVec.ofNat 16 b.toNat := by
  apply BitVec.eq_of_toNat_eq
  simp
  omega

theorem indexZeroPage_eq (z r : Byte) :
    indexZeroPage z r s = (BitVec.ofNat 16 ((z.toNat + r.toNat) % 256), charge 1 s) := by
  rw [indexZeroPage, zext16_eq, zpindex_toNat]

theorem absindex_eq (w : Word) (r : Byte) : absindex w r = BitVec.ofNat 16 (w.toNat + r.toNat) := by
  apply BitVec.eq_of_toNat_eq
  simp

theorem same_page_iff {w r : Nat} (hw : w < 65536) (hr : r < 256) :
    w / 256 = (w + r) % 65536 / 256 ↔ ¬ 256 ≤ w % 256 + r := by
  omega

/-- The index step of the absolute modes: the address and, on a page crossing, one cycle. -/
theorem indexAbsolute_eq (w : Word) (r : Byte) :
    indexAbsolute w r s = (BitVec.ofNat 16 (w.toNat + r.toNat),
      charge (if w.toNat / 256 = (w.toNat + r.toNat) % 65536 / 256 then 0 else 1) s) := by
  rw [indexAbsolute, chargeCross_absindex, absindex_eq, if_congr (same_page_iff w.isLt r.isLt) rfl rfl, ite_not]

/-! ## Stack pointer -/

theorem sp_of_wrap (h : s.cfg.spPageWrap = true) : s.sp.toNat = 256 + s.sLow.toNat := by
  simp [State.sp, h]

theorem sp_of_not_wrap (h : s.cfg.spPageWrap = false) : s.sp = join s.spHigh s.sLow := by
  simp [State.sp, h]

theorem sp_setSp_of_not_wrap (w : Word) (h : s.cfg.spPageWrap = false) : (s.setSp w).sp = w := by
  simp [State.sp, State.setSp, h]

/-- Advancing SP reads only SP's own fields and the parameters. -/
theorem advanceSp_congr {s t : State} (h1 : t.sLow = s.sLow) (h2 : t.spHigh = s.spHigh) (h3 : t.cfg = s.cfg) :
    (advanceSp t).sLow = (advanceSp s).sLow ∧ (advanceSp t).spHigh = (advanceSp s).spHigh := by
  cases h : s.cfg.spPageWrap <;> simp [advanceSp, State.setSp, State.sp, h1, h2, h3, h]

/-- Where SP is after an advance, under either reading of `SP_PAGE_WRAP`. -/
theorem sp_advanceSp : (advanceSp s).sp.toNat =
    if s.cfg.spPageWrap then 256 + (s.sLow.toNat + 2) % 256 else (s.sp.toNat + 2) % 65536 := by
  cases h : s.cfg.spPageWrap
  · simp [advanceSp, h, sp_setSp_of_not_wrap, BitVec.toNat_add]
  · simp [advanceSp, State.sp, h]

/-- The stack pointer reads only its own fields. -/
theorem sp_congr {s t : State} (h1 : t.sLow = s.sLow) (h2 : t.spHigh = s.spHigh) (h3 : t.cfg = s.cfg) :
    t.sp = s.sp := by
  simp [State.sp, h1, h2, h3]

end Sys2Proof.Machine
end

