-- ==== Sys2Proof/Laws/Step.lean ====
section
/-! SUPPORT. What a step can do, said once: the outcome of every meaning, and the inversion of `step`. -/

namespace Sys2Proof.Machine

/-- JSR's effect, field by field: the fields it writes, and nothing else but memory at the old SP. -/
theorem callSubroutine_eq (w : Word) (s : State) :
    callSubroutine w s =
      { s with
        pc := w, sLow := (advanceSp s).sLow, spHigh := (advanceSp s).spHigh, cyc := s.cyc - 3
        mem := (writeWord s.sp (dec16 s.pc) s).mem } := by
  obtain ⟨h1, h2⟩ :=
    advanceSp_congr (s := s) (t := (writeWord s.sp (dec16 s.pc) s).setPc w) rfl rfl rfl
  ext1 <;> simp only [callSubroutine, charge_pc, charge_sLow, charge_spHigh, charge_a, charge_x, charge_y, charge_c,
    charge_z, charge_i, charge_d, charge_b, charge_v, charge_n, charge_cyc, charge_budget, charge_diag, charge_status,
    charge_mem, charge_cfg, advanceSp_pc, advanceSp_a, advanceSp_x, advanceSp_y, advanceSp_c, advanceSp_z,
    advanceSp_i, advanceSp_d, advanceSp_b, advanceSp_v, advanceSp_n, advanceSp_cyc, advanceSp_budget, advanceSp_diag,
    advanceSp_status, advanceSp_mem, advanceSp_cfg, h1, h2] <;> try rfl
  simp [writeWord]
  omega

theorem sp_callSubroutine (w : Word) (s : State) : (callSubroutine w s).sp = (advanceSp s).sp := by
  rw [callSubroutine_eq]
  exact sp_congr rfl rfl (advanceSp_cfg s).symm

/-- The low byte of the return word PC - 1 lies at the old SP. -/
theorem byteAt_callSubroutine_low (w : Word) (s : State) :
    (callSubroutine w s).byteAt s.sp.toNat = lo (dec16 s.pc) := by
  rw [callSubroutine_eq]
  exact byteAt_writeWord_low s s.sp (dec16 s.pc)

/-- The high byte of the return word PC - 1 lies at the address after the old SP. -/
theorem byteAt_callSubroutine_high (w : Word) (s : State) :
    (callSubroutine w s).byteAt (s.sp.toNat + 1) = hi (dec16 s.pc) := by
  rw [callSubroutine_eq]
  exact byteAt_writeWord_high s s.sp (dec16 s.pc)

/-- A call writes no byte but the two at the old SP. -/
theorem read_callSubroutine (w : Word) (s : State) {n : Nat} (h1 : n ≠ s.sp.toNat)
    (h2 : n ≠ (s.sp.toNat + 1) % 65536) : (callSubroutine w s).mem.read n = s.mem.read n := by
  rw [callSubroutine_eq]
  exact (read_writeWord s s.sp (dec16 s.pc) n).trans (by rw [if_neg h2, if_neg h1])

/-- Every instruction of the load family is a load of some byte after some cycles. -/
theorem exec_load {i : Instr} {m : Mode} (h : i.opcode = .lda m) (s : State) :
    ∃ w k, k ≤ 2 ∧ exec i s = .next (s.afterLoad w 0 k) := by
  cases i <;> simp only [Instr.opcode, reduceCtorEq] at h
  · exact ⟨_, 0, by omega, by simp [exec, execLdaImm, loadAccumulator_eq]; rfl⟩
  · exact ⟨_, 1, by omega, by simp [exec, execLdaZp, loadFrom_eq]; rfl⟩
  · exact ⟨_, 2, by omega, by simp [exec, execLdaZpX, indexZeroPage, loadFrom_charge]; rfl⟩
  · exact ⟨_, 2, by omega, by simp [exec, execLdaZpY, indexZeroPage, loadFrom_charge]; rfl⟩
  · exact ⟨_, 1, by omega, by simp [exec, execLdaAbs, loadFrom_eq]; rfl⟩
  · refine ⟨_, _, ?_, by simp [exec, execLdaAbsX, indexAbsolute, chargeCross_absindex, loadFrom_charge]; rfl⟩
    split <;> omega
  · refine ⟨_, _, ?_, by simp [exec, execLdaAbsY, indexAbsolute, chargeCross_absindex, loadFrom_charge]; rfl⟩
    split <;> omega

/-- Everything an instruction can do: a load, a call, or a report. -/
theorem exec_cases (i : Instr) (s : State) :
    (∃ m w k, i.opcode = .lda m ∧ k ≤ 2 ∧ exec i s = .next (s.afterLoad w 0 k)) ∨
    (∃ w, i = .jsr w ∧ exec i s = .next (callSubroutine w s)) ∨
    (∃ op, i = .unknown op ∧ exec i s = .next (report op s)) := by
  rcases h : i.opcode with m | _ | _
  · obtain ⟨w, k, hk, he⟩ := exec_load h s
    exact .inl ⟨m, w, k, rfl, hk, he⟩
  · cases i <;> simp [Instr.opcode] at h
    exact .inr (.inl ⟨_, rfl, rfl⟩)
  · cases i <;> simp [Instr.opcode] at h
    exact .inr (.inr ⟨_, rfl, rfl⟩)

theorem step_idle {s : State} (h : s.status = .idle) :
    step s = exec (fetchInstr s).1 (s.fetched (fetchInstr s).1.length) := by
  rw [step, h, fetchInstr_snd]

theorem step_poweron {s : State} (h : s.status = .poweron) : step s = .refused .executeBeforeReset := by
  rw [step, h]

/-- A step of an idle machine, once the opcode byte at PC is decoded. -/
theorem step_of_opcode {s : State} {o : Opcode} (hs : s.status = .idle)
    (h : decodeOpcode s.cfg (s.byteAt s.pc.toNat) = o) :
    step s = exec (assemble o (s.byteAt s.pc.toNat) (fetchOperand o.format (s.fetched 1)).1)
      (s.fetched o.format.length) := by
  rw [step_idle hs, fetchInstr_fst s h, assemble_length]

/-- The inversion of a step: a next state comes from an idle state, by a load, a call or a report. -/
theorem step_cases {s t : State} (h : step s = .next t) :
    s.status = .idle ∧
    ((∃ m w k, (fetchInstr s).1.opcode = .lda m ∧ k ≤ 2 ∧
        t = s.afterLoad w (fetchInstr s).1.length ((fetchInstr s).1.length + k)) ∨
     (∃ w, (fetchInstr s).1 = .jsr w ∧ t = callSubroutine w (s.fetched 3)) ∨
     (∃ op, (fetchInstr s).1 = .unknown op ∧ t = report op (s.fetched 1))) := by
  cases hs : s.status
  · rw [step_poweron hs] at h
    cases h
  · refine ⟨rfl, ?_⟩
    rw [step_idle hs] at h
    rcases exec_cases (fetchInstr s).1 (s.fetched (fetchInstr s).1.length) with
      ⟨m, w, k, ho, hk, he⟩ | ⟨w, hi, he⟩ | ⟨op, hi, he⟩
    · rw [he, fetched_afterLoad] at h
      cases h
      exact .inl ⟨m, w, k, ho, hk, rfl⟩
    · rw [he] at h
      cases h
      refine .inr (.inl ⟨w, hi, ?_⟩)
      rw [hi]
      rfl
    · rw [he] at h
      cases h
      refine .inr (.inr ⟨op, hi, ?_⟩)
      rw [hi]
      rfl

theorem format_length_bounds (f : Format) : 1 ≤ f.length ∧ f.length ≤ 3 := by
  cases f <;> simp [Format.length]

theorem instr_length_bounds (i : Instr) : 1 ≤ i.length ∧ i.length ≤ 3 := format_length_bounds _

/-- A call is the whole of its cost at once: 6 cycles counted from before the fetch. -/
theorem callSubroutine_fetched_cyc (w : Word) (s : State) : (callSubroutine w (s.fetched 3)).cyc = s.cyc - 6 := by
  rw [callSubroutine_eq]
  simp only [fetched_cyc]
  omega

end Sys2Proof.Machine
end

