-- ==== Sys2Proof/Laws/Execute.lean ====
section
/-! SUPPORT. The induction over the loop of `execute`, packaged once, and what one step costs. -/

namespace Sys2Proof.Machine

/-- An idle machine always steps, stays idle, and pays between 1 and 6 cycles. -/
theorem step_cost {s : State} (hs : s.status = .idle) :
    ∃ t, step s = .next t ∧ t.status = .idle ∧ s.cyc - 6 ≤ t.cyc ∧ t.cyc ≤ s.cyc - 1 := by
  have hl := instr_length_bounds (fetchInstr s).1
  rw [step_idle hs]
  rcases exec_cases (fetchInstr s).1 (s.fetched (fetchInstr s).1.length) with
    ⟨m, w, k, -, hk, he⟩ | ⟨w, hi, he⟩ | ⟨op, hi, he⟩
  · refine ⟨_, he, ?_, ?_, ?_⟩
    · simpa using hs
    · simp only [afterLoad_cyc, fetched_cyc]
      omega
    · simp only [afterLoad_cyc, fetched_cyc]
      omega
  · have h3 : (fetchInstr s).1.length = 3 := by rw [hi]; rfl
    rw [h3] at he ⊢
    refine ⟨_, he, ?_, ?_, ?_⟩
    · rw [callSubroutine_eq]
      exact hs
    · rw [callSubroutine_fetched_cyc]
    · rw [callSubroutine_fetched_cyc]
      omega
  · refine ⟨_, he, ?_, ?_, ?_⟩
    · simpa using hs
    · simp only [report_cyc, fetched_cyc]
      omega
    · simp only [report_cyc, fetched_cyc]
      omega

theorem runLoop_done {s : State} (fuel : Nat) (h : s.cyc ≤ 0) : runLoop fuel s = .next s := by
  cases fuel with
  | zero => rfl
  | succ fuel => rw [runLoop, if_neg (by omega)]

theorem runLoop_step {s t : State} {fuel : Nat} (h : 0 < s.cyc) (hst : step s = .next t) :
    runLoop (fuel + 1) s = runLoop fuel t := by
  rw [runLoop, if_pos h, hst]

/-- What every step of a running loop keeps holds at its end. -/
theorem runLoop_invariant {P : State → Prop} (hstep : ∀ s t, P s → 0 < s.cyc → step s = .next t → P t) {fuel : Nat}
    {s t : State} (hs : P s) (h : runLoop fuel s = .next t) : P t := by
  induction fuel generalizing s with
  | zero =>
    cases h
    exact hs
  | succ fuel ih =>
    by_cases hc : 0 < s.cyc
    · cases hst : step s with
      | next u =>
        rw [runLoop_step hc hst] at h
        exact ih (hstep s u hs hc hst) h
      | fault r => nomatch r
      | refused r =>
        rw [runLoop, if_pos hc, hst] at h
        cases h
    · rw [runLoop_done _ (by omega)] at h
      cases h
      exact hs

/-- One more step of the host's run. -/
theorem core_run_succ {s t : State} (h : step s = .next t) (j : Nat) :
    Sys2Proof.core.run (j + 1) s = Sys2Proof.core.run j t := by
  have h' : Sys2Proof.core.step s = .next t := h
  simp only [Host.Core.run, h']

theorem execute_idle {s : State} (hs : s.status = .idle) (k : Int) :
    execute k s = runLoop k.toNat (beginExecute k s) := by
  rw [execute, hs]

theorem status_of_execute {s t : State} {k : Int} (h : execute k s = .next t) : s.status = .idle := by
  cases hs : s.status with
  | idle => rfl
  | poweron =>
    rw [execute, hs] at h
    cases h

/-- What the start of a call establishes and every step keeps holds when an `execute` returns. -/
theorem execute_invariant {P : State → Prop} (hstep : ∀ s t, P s → 0 < s.cyc → step s = .next t → P t) {k : Int}
    {s t : State} (hs : P (beginExecute k s)) (h : execute k s = .next t) : P t := by
  rw [execute_idle (status_of_execute h)] at h
  exact runLoop_invariant hstep hs h

end Sys2Proof.Machine
end

