-- ==== Sys2Proof/Laws/PerInstr.lean ====
section
/-! SUPPORT. Two facts about every instruction as syntax, one lemma per constructor: an encoding has the instruction's length, and a
well-formed instruction has an encoding. -/

namespace Sys2Proof.Laws

/-- The encoding of an instruction has as many bytes as the instruction's format (R100, R102). -/
def EncodedLength.Statement (i : Instr) : Prop :=
  ∀ cfg bs, encode cfg i = some bs → bs.length = i.length

theorem EncodedLength.ldaImm (b : Byte) : EncodedLength.Statement (.ldaImm b) := by
  rintro cfg bs ⟨⟩; rfl
theorem EncodedLength.ldaZp (z : Byte) : EncodedLength.Statement (.ldaZp z) := by
  rintro cfg bs ⟨⟩; rfl
theorem EncodedLength.ldaZpX (z : Byte) : EncodedLength.Statement (.ldaZpX z) := by
  rintro cfg bs ⟨⟩; rfl
theorem EncodedLength.ldaZpY (z : Byte) : EncodedLength.Statement (.ldaZpY z) := by
  intro cfg bs h
  obtain ⟨q, -, rfl⟩ := Option.map_eq_some_iff.1 h
  rfl
theorem EncodedLength.ldaAbs (w : Word) : EncodedLength.Statement (.ldaAbs w) := by
  rintro cfg bs ⟨⟩; rfl
theorem EncodedLength.ldaAbsX (w : Word) : EncodedLength.Statement (.ldaAbsX w) := by
  rintro cfg bs ⟨⟩; rfl
theorem EncodedLength.ldaAbsY (w : Word) : EncodedLength.Statement (.ldaAbsY w) := by
  rintro cfg bs ⟨⟩; rfl
theorem EncodedLength.jsr (w : Word) : EncodedLength.Statement (.jsr w) := by
  rintro cfg bs ⟨⟩; rfl
theorem EncodedLength.unknown (op : Byte) : EncodedLength.Statement (.unknown op) := by
  rintro cfg bs ⟨⟩; rfl

/-- A well-formed instruction has an encoding (R106, R108). -/
def WellFormedEncodes.Statement (i : Instr) : Prop :=
  ∀ cfg, i.wf cfg = true → ∃ bs, encode cfg i = some bs

theorem WellFormedEncodes.ldaImm (b : Byte) : WellFormedEncodes.Statement (.ldaImm b) := fun _ _ => ⟨_, rfl⟩
theorem WellFormedEncodes.ldaZp (z : Byte) : WellFormedEncodes.Statement (.ldaZp z) := fun _ _ => ⟨_, rfl⟩
theorem WellFormedEncodes.ldaZpX (z : Byte) : WellFormedEncodes.Statement (.ldaZpX z) := fun _ _ => ⟨_, rfl⟩
theorem WellFormedEncodes.ldaZpY (z : Byte) : WellFormedEncodes.Statement (.ldaZpY z) := by
  intro cfg h
  obtain ⟨q, hq⟩ := Option.isSome_iff_exists.1 h
  exact ⟨[q, z], by simp [encode, hq]⟩
theorem WellFormedEncodes.ldaAbs (w : Word) : WellFormedEncodes.Statement (.ldaAbs w) := fun _ _ => ⟨_, rfl⟩
theorem WellFormedEncodes.ldaAbsX (w : Word) : WellFormedEncodes.Statement (.ldaAbsX w) := fun _ _ => ⟨_, rfl⟩
theorem WellFormedEncodes.ldaAbsY (w : Word) : WellFormedEncodes.Statement (.ldaAbsY w) := fun _ _ => ⟨_, rfl⟩
theorem WellFormedEncodes.jsr (w : Word) : WellFormedEncodes.Statement (.jsr w) := fun _ _ => ⟨_, rfl⟩
theorem WellFormedEncodes.unknown (op : Byte) : WellFormedEncodes.Statement (.unknown op) := fun _ _ => ⟨_, rfl⟩

end Sys2Proof.Laws
end

