-- ==== Sys2Proof/Tests/Slice0.lean ====
section
/-! SUPPORT. Tests: expected results are the spec's own vectors (95_test_vectors.md, named in each comment) or its tables, and a
witness for the hypotheses of every statement of Certificates/Slice0/Obligations.lean that has some. -/

namespace Sys2Proof.Tests

open Sys2Proof Sys2Proof.Machine

/-- The reset machine with bytes loaded at an address (R265). -/
def load (p : Word) (bs : List Byte) : State := loadBytes p bs State.reset

/-- The next state of an outcome, if it is one. -/
def after : Host.Outcome State Fault Refusal → Option State
  | .next s => some s
  | .fault _ => none
  | .refused _ => none

/-- A, Z, N, PC and the counter after a step: what a load shows. -/
def loadView (s : State) : Option (Byte × Bool × Bool × Word × Int) :=
  (after (step s)).map fun t => (t.a, t.z, t.n, t.pc, t.cyc)

/-- The reset machine with a 16-bit SP, `SP_PAGE_WRAP = false`. -/
def noWrap : State := State.resetWith { Config.standard with spPageWrap := false }

/-- Legal parameters that give LDA zero-page,Y a byte that names no other instruction. -/
def withZpY : Config := { Config.standard with opcLdaZpY := some 0x03 }

/-! ## WellFormed: each check refuses an ill-formed term -/

theorem test_wf_ldaZpY_refused : (Instr.ldaZpY 0xF0).wf Config.standard = false := by decide
theorem test_wf_ldaZpY_accepted : (Instr.ldaZpY 0xF0).wf withZpY = true := by decide
theorem test_wf_unknown_refused : (Instr.unknown 0xA9).wf Config.standard = false := by decide
theorem test_wf_unknown_accepted : (Instr.unknown 0xEA).wf Config.standard = true := by decide
theorem test_wf_config_refused : ({ Config.standard with opcJsr := 0xBD } : Config).wf = false := by decide
theorem test_wf_config_accepted : Config.standard.wf = true ∧ withZpY.wf = true := by decide
theorem test_wf_memory_refused :
    Memory.wf [(5, 1), (5, 2)] = false ∧ Memory.wf [(6, 1), (5, 2)] = false ∧ Memory.wf [(5, 0)] = false ∧
      Memory.wf [(65536, 1)] = false := by decide

/-! ## Decode: bytes written out bit by bit from the table's `encoding` column -/

theorem test_decode_ldaImm : decode Config.standard [0b10101001, 0x84] = .ok (.ldaImm 0x84, []) := by decide
theorem test_decode_ldaZp : decode Config.standard [0b10100101, 0x42] = .ok (.ldaZp 0x42, []) := by decide
theorem test_decode_ldaZpX : decode Config.standard [0b10110101, 0x80] = .ok (.ldaZpX 0x80, []) := by decide
theorem test_decode_ldaZpY : decode withZpY [0x03, 0xF0] = .ok (.ldaZpY 0xF0, []) := by decide
theorem test_decode_ldaAbs :
    decode Config.standard [0b10101101, 0x80, 0x44] = .ok (.ldaAbs 0x4480, []) := by decide
theorem test_decode_ldaAbsX :
    decode Config.standard [0b10111101, 0x02, 0x44] = .ok (.ldaAbsX 0x4402, []) := by decide
theorem test_decode_ldaAbsY :
    decode Config.standard [0b10111001, 0x80, 0x44] = .ok (.ldaAbsY 0x4480, []) := by decide
theorem test_decode_jsr : decode Config.standard [0b00100000, 0x34, 0x12] = .ok (.jsr 0x1234, []) := by decide
theorem test_decode_unknown :
    decode Config.standard [0x02, 0xA9, 0x84] = .ok (.unknown 0x02, [0xA9, 0x84]) := by decide
/-- V-ZPY-2: 0xB6 is not borrowed. -/
theorem test_decode_b6_unknown : decodeOpcode Config.standard 0xB6 = .unknown := by decide
theorem test_decode_truncated :
    decode Config.standard [] = .error .noOpcode ∧ decode Config.standard [0x20, 0x42] = .error (.missingOperand 0x20) := by
  decide
theorem test_decodeTableWord :
    decodeTableWord 16 0x84A9 = some (.ldaImm 0x84) ∧ decodeTableWord 24 0x4402BD = some (.ldaAbsX 0x4402) ∧
      decodeTableWord 8 0x20 = some (.jsr 0) ∧ decodeTableWord 8 0x00 = some (.unknown 0) := by decide

/-! ## Sub-blocks: the vectors of 95_test_vectors.md, 2.1 to 2.3 -/

theorem test_alu_wraps :
    inc16 0xFFFF = 0x0000 ∧ dec16 0x0000 = 0xFFFF ∧ zpindex 0x80 0xFF = 0x7F ∧ absindex 0x4402 0xFF = 0x4501 ∧
      absindex 0xFFFF 0x01 = 0x0000 ∧ spadvance 0xFE = 0x00 ∧ spadvance 0xFF = 0x01 := by decide
theorem test_alu_bytes : hi 0x4402 = 0x44 ∧ lo 0x4402 = 0x02 ∧ join 0x44 0x02 = 0x4402 := by decide
theorem test_pagecross :
    pagecross 0x4402 0x4501 = true ∧ pagecross 0x4402 0x4403 = false ∧ pagecross 0xFFFF 0x0000 = true ∧
      pagecross 0x4400 0x44FF = false := by decide
theorem test_flag_detectors :
    iszero 0x00 = true ∧ iszero 0x80 = false ∧ isneg 0x7F = false ∧ isneg 0x80 = true ∧ isneg 0xFF = true := by decide
/-- V-FW-2: a word fetch across the wrap, low byte first. -/
theorem test_fetchWord_wraps :
    (fetchWord { load 0xFFFF [0x34, 0x12] with pc := 0xFFFF, cyc := 10 }).1 = 0x1234 ∧
      (fetchWord { load 0xFFFF [0x34, 0x12] with pc := 0xFFFF, cyc := 10 }).2.pc = 0x0001 := by decide
/-- V-RES-4, V-RES-9, V-RES-1. -/
theorem test_resolve :
    (resolve .zpx { load 0x0201 [0x80] with pc := 0x0201, x := 0xFF }).1 = .address 0x007F ∧
      (resolve .absx { load 0x0201 [0x02, 0x44] with pc := 0x0201, x := 0xFF, cyc := 10 }).2.cyc = 7 ∧
      (resolve .imm { load 0x0201 [0x80] with pc := 0x0201 }).1 = .immediate := by decide

/-! ## Instructions: one step each -/

/-- V-IMM-4. -/
theorem test_ldaImm : loadView { load 0xFFFC [0xA9, 0x80] with cyc := 1 } = some (0x80, false, true, 0xFFFE, -1) := by
  decide
/-- V-IMM-6: an instruction across the address wrap. -/
theorem test_ldaImm_wraps :
    loadView { load 0xFFFF [0xA9, 0x33] with pc := 0xFFFF, cyc := 1 } = some (0x33, false, false, 0x0001, -1) := by decide
/-- V-ZP-3. -/
theorem test_ldaZp : loadView { load 0xFFFC [0xA5, 0x10] with a := 0x55, cyc := 3 } = some (0x00, true, false, 0xFFFE, 0) := by
  decide
/-- V-ZPX-2: the zero page wraps. -/
theorem test_ldaZpX :
    loadView { memWrite 0x017F 0x99 (memWrite 0x007F 0x37 (load 0xFFFC [0xB5, 0x80])) with x := 0xFF, cyc := 1 } =
      some (0x37, false, false, 0xFFFE, -3) := by decide
/-- V-ZPY-1. -/
theorem test_ldaZpY :
    loadView { memWrite 0x0110 0x99 (load 0x0200 [0x03, 0xF0]) with
        pc := 0x0200, y := 0x20, a := 0x55, cyc := 1, cfg := withZpY } =
      some (0x00, true, false, 0x0202, -3) := by decide
/-- V-ABS-2: low byte first. -/
theorem test_ldaAbs :
    loadView { memWrite 0x8044 0x99 (memWrite 0x4480 0x37 (load 0xFFFC [0xAD, 0x80, 0x44])) with cyc := 4 } =
      some (0x37, false, false, 0xFFFF, 0) := by decide
/-- S2, the source's own scenario, with its page crossing. -/
theorem test_ldaAbsX_crossing :
    loadView { memWrite 0x4501 0x37 (load 0xFFFC [0xBD, 0x02, 0x44]) with x := 0xFF, cyc := 4 } =
      some (0x37, false, false, 0xFFFF, -1) := by decide
/-- V-ABSX-4: the address wraps to 0x0000 and counts as a crossing. -/
theorem test_ldaAbsX_wraps :
    loadView { memWrite 0x0000 0x80 (load 0x0200 [0xBD, 0xFF, 0xFF]) with pc := 0x0200, x := 0x01, cyc := 1 } =
      some (0x80, false, true, 0x0203, -4) := by decide
/-- V-ABSY-3: Y, not X. -/
theorem test_ldaAbsY :
    loadView { memWrite 0x4402 0x11 (memWrite 0x4501 0x37 (load 0xFFFC [0xB9, 0x02, 0x44])) with y := 0xFF, cyc := 1 } =
      some (0x37, false, false, 0xFFFF, -4) := by decide
/-- V-ABSY-1: no crossing. -/
theorem test_ldaAbsY_same_page :
    loadView { memWrite 0x4481 0x80 (load 0xFFFC [0xB9, 0x80, 0x44]) with y := 0x01, cyc := 1 } =
      some (0x80, false, true, 0xFFFF, -3) := by decide
/-- V-JSR-3: S = 0xFF, the high byte of the return word goes to 0x0200. -/
theorem test_jsr :
    (after (step { load 0xFFFC [0x20, 0x42, 0x42] with sLow := 0xFF, cyc := 1 })).map
        (fun t => (t.pc, t.sp, t.byteAt 0x01FF, t.byteAt 0x0200, t.byteAt 0x0100, t.cyc)) =
      some (0x4242, 0x0101, 0xFE, 0xFF, 0x00, -5) := by decide
/-- V-JSR-2 with `SP_PAGE_WRAP = false`: SP reaches 0x0200. -/
theorem test_jsr_no_wrap :
    (after (step { load 0xFFFC [0x20, 0x42, 0x42] with
        sLow := 0xFE, cfg := { Config.standard with spPageWrap := false } })).map
        (fun t => (t.sp, t.byteAt 0x01FE, t.byteAt 0x01FF)) =
      some (0x0200, 0xFE, 0xFF) := by decide
/-- V-UNK-4: the byte after an unknown opcode is not its operand. -/
theorem test_unknown :
    (after (step { load 0xFFFC [0x02, 0xA9, 0x84] with cyc := 1 })).map (fun t => (t.pc, t.a, t.diag, t.cyc)) =
      some (0xFFFD, 0x00, [0x02], 0) := by decide

/-! ## Host operations -/

/-- S1, the source's own scenario: `execute(1)` returns 2. -/
theorem test_execute_overshoots :
    (after (execute 1 (load 0xFFFC [0xA9, 0x84]))).map (fun t => (t.cyclesConsumed, t.a, t.cyc)) = some (2, 0x84, -1) := by
  decide
/-- V-EX-4: the last cycle starts one more instruction. -/
theorem test_execute_runs_on :
    (after (execute 3 (load 0xFFFC [0xA9, 0x84]))).map (fun t => (t.cyclesConsumed, t.pc, t.diag)) =
      some (3, 0xFFFF, [0x00]) := by decide
/-- V-EX-2. -/
theorem test_execute_negative :
    (after (execute (-3) (load 0xFFFC [0xA9, 0x84]))).map (fun t => (t.cyclesConsumed, t.pc, t.diag)) =
      some (0, 0xFFFC, []) := by decide
/-- V-RST-3. -/
theorem test_execute_before_reset : after (execute 1 (State.powerOn Config.standard)) = none := by decide
/-- V-RST-2: reset keeps B. -/
theorem test_reset_keeps_b :
    (hostReset { State.reset with b := true, v := true, sLow := 0x02 }).b = true ∧
      (hostReset { State.reset with b := true, v := true, sLow := 0x02 }).v = false ∧
      (hostReset { State.reset with sLow := 0x02 }).sp = 0x0100 := by decide
/-- The table word of LDA immediate runs as the first instruction after reset. -/
theorem test_withFetchWord :
    (after (step (State.reset.withFetchWord 16 0x84A9))).map (fun t => (t.a, t.pc)) = some (0x84, 0xFFFE) := by decide

/-! ## Witnesses: states that meet all hypotheses of a statement together, named after it -/

theorem witness_DecodeOfEncode :
    (Config.standard.wf = true ∧ (Instr.jsr 0x1234).wf Config.standard = true) ∧
      (withZpY.wf = true ∧ (Instr.ldaZpY 0xF0).wf withZpY = true) := by decide
theorem witness_EncodeOfDecode : decode withZpY [0x03, 0xF0, 0x77] = .ok (.ldaZpY 0xF0, [0x77]) := by decide
theorem witness_AssignedOpcodeCount : Config.standard.wf = true ∧ withZpY.wf = true := by decide
theorem witness_CanonicalMemoryIsItsContents :
    Memory.wf [(0, 1), (65535, 2)] = true ∧ ∀ n, n < 65536 → Memory.read [(0, 1), (65535, 2)] n = Memory.read [(0, 1), (65535, 2)] n :=
  ⟨by decide, fun _ _ => rfl⟩
theorem witness_StackPointerIsInItsPage :
    State.reset.cfg.spPageWrap = true ∧ noWrap.cfg.spPageWrap = false := by decide
theorem witness_LoadFrame :
    (Instr.ldaZpX 0x80).opcode = .lda .zpx ∧ ∃ t, exec (.ldaZpX 0x80) State.reset = .next t := ⟨rfl, _, rfl⟩
theorem witness_JsrFrame : ∃ t, exec (.jsr 0x1234) { State.reset with sLow := 0xFF } = .next t := ⟨_, rfl⟩
theorem witness_UnknownOpcodeFrame : ∃ t, exec (.unknown 0x00) State.reset = .next t := ⟨_, rfl⟩
/-- Idle states: `StepRunsDecodedInstruction`, `StepIsSpecStep`, `ExecuteOneIsOneStep`, `ExecuteRunsStepsWhileBudgetRemains`. -/
theorem witness_idle : State.reset.status = .idle := rfl
/-- Both SP clauses: an idle machine with the wrap, and one without it. -/
theorem witness_PreloadWritesOneRegister :
    (State.reset.status = .idle ∧ State.reset.cfg.spPageWrap = true) ∧
      noWrap.status = .idle ∧ noWrap.cfg.spPageWrap = false := by decide
theorem witness_RefusedBeforeReset : (State.powerOn Config.standard).status = .poweron := rfl
theorem witness_LoadImmediateStep :
    (load 0xFFFC [0xA9, 0x84]).status = .idle ∧
      (load 0xFFFC [0xA9, 0x84]).byteAt (load 0xFFFC [0xA9, 0x84]).pc.toNat = 0xA9 := by decide
theorem witness_LoadZeroPageStep :
    (load 0xFFFC [0xA5, 0xFF]).status = .idle ∧ (load 0xFFFC [0xA5, 0xFF]).cfg.wf = true ∧
      (load 0xFFFC [0xA5, 0xFF]).byteAt (load 0xFFFC [0xA5, 0xFF]).pc.toNat = (load 0xFFFC [0xA5, 0xFF]).cfg.opcLdaZp := by
  decide
/-- The zero-page,X clause with an index sum of exactly 256, and the zero-page,Y clause. -/
theorem witness_LoadZeroPageIndexedStep :
    ((load 0xFFFC [0xB5, 0xFF]).cfg.wf = true ∧ (load 0xFFFC [0xB5, 0xFF]).byteAt 0xFFFC = Config.standard.opcLdaZpX) ∧
      withZpY.wf = true ∧
      withZpY.opcLdaZpY = some (({ load 0xFFFC [0x03, 0xFF] with cfg := withZpY } : State).byteAt 0xFFFC) := by decide
theorem witness_LoadAbsoluteStep :
    (load 0xFFFC [0xAD, 0xFC, 0xFF]).status = .idle ∧ (load 0xFFFC [0xAD, 0xFC, 0xFF]).cfg.wf = true ∧
      (load 0xFFFC [0xAD, 0xFC, 0xFF]).byteAt 0xFFFC = Config.standard.opcLdaAbs := by decide
/-- Both clauses, and the page-crossing test on either side of its boundary: low bytes 0xFE + 1 and 0xFF + 1. -/
theorem witness_LoadAbsoluteIndexedStep :
    ((load 0xFFFC [0xBD, 0xFE, 0x44]).byteAt 0xFFFC = 0xBD ∧
      ((load 0xFFFC [0xBD, 0xFE, 0x44]).wordAt 0xFFFD / 256 = ((load 0xFFFC [0xBD, 0xFE, 0x44]).wordAt 0xFFFD + 1) % 65536 / 256)) ∧
    ((load 0xFFFC [0xB9, 0xFF, 0x44]).byteAt 0xFFFC = Config.standard.opcLdaAbsY ∧
      ¬ ((load 0xFFFC [0xB9, 0xFF, 0x44]).wordAt 0xFFFD / 256 = ((load 0xFFFC [0xB9, 0xFF, 0x44]).wordAt 0xFFFD + 1) % 65536 / 256)) := by
  decide
theorem witness_LoadStepRule :
    (load 0xFFFC [0xBD, 0x02, 0x44]).status = .idle ∧
      decodeOpcode (load 0xFFFC [0xBD, 0x02, 0x44]).cfg ((load 0xFFFC [0xBD, 0x02, 0x44]).byteAt 0xFFFC) = .lda .absx := by
  decide
theorem witness_JumpToSubroutineStep :
    (load 0xFFFD [0x20, 0x34, 0x12]).status = .idle ∧ (load 0xFFFD [0x20, 0x34, 0x12]).cfg.wf = true ∧
      (load 0xFFFD [0x20, 0x34, 0x12]).byteAt 0xFFFD = Config.standard.opcJsr := by decide
theorem witness_UnknownOpcodeStep :
    State.reset.status = .idle ∧ State.reset.byteAt State.reset.pc.toNat ∉ State.reset.cfg.opcodeBytes := by decide
/-- `ProgramCounterAdvance` and `CycleTable`, for a JSR, an unknown opcode and a load. -/
theorem witness_decoded_windows :
    decode Config.standard (load 0xFFFC [0x20, 0x34, 0x12]).window = .ok (.jsr 0x1234, []) ∧
      decode Config.standard State.reset.window = .ok (.unknown 0x00, [0x00, 0x00]) ∧
      decode Config.standard (load 0xFFFC [0xBD, 0xFF, 0x44]).window = .ok (.ldaAbsX 0x44FF, []) := by decide
/-- `StepNeverWrites`, `StackPointerMovesOnlyByCalls` (both clauses) and `StepKeepsInvariant`. -/
theorem witness_steps :
    (∃ t, step (load 0xFFFC [0x20, 0x34, 0x12]) = .next t) ∧ (∃ t, step State.reset = .next t) ∧
      State.reset.cfg.spPageWrap = true ∧ State.reset.Inv ∧
      decodeOpcode Config.standard ((load 0xFFFC [0x20, 0x34, 0x12]).byteAt 0xFFFC) = .jsr ∧
      decodeOpcode Config.standard (State.reset.byteAt 0xFFFC) ≠ .jsr :=
  ⟨⟨_, rfl⟩, ⟨_, rfl⟩, rfl, ⟨by decide, rfl, fun _ => rfl⟩, by decide, by decide⟩
theorem witness_AccumulatorFlagsAndCounterAreNeverRead :
    ({ State.reset with a := 0x55, c := true, cyc := 7 } : State).withoutResults = State.reset.withoutResults ∧
      ∃ t, step { State.reset with a := 0x55, c := true, cyc := 7 } = .next t := ⟨rfl, _, rfl⟩
theorem witness_ResetSatisfiesInvariant : withZpY.wf = true := by decide
/-- `HostMovesKeepInvariant`: the invariant holds, a preload and an `execute` answer next states. -/
theorem witness_HostMovesKeepInvariant :
    (∃ t, preload (.sp 0x01FF) State.reset = .next t) ∧ (∃ t, execute 1 State.reset = .next t) :=
  ⟨⟨_, rfl⟩, ⟨_, rfl⟩⟩
/-- `ResetRule` and `ResetIsIdempotent`: both values of RESET_CLEARS_MEMORY. -/
theorem witness_reset_clears_memory :
    State.reset.cfg.resetClearsMemory = false ∧
      ({ State.reset with cfg := { Config.standard with resetClearsMemory := true } } : State).cfg.resetClearsMemory = true :=
  ⟨rfl, rfl⟩
/-- `NonPositiveBudgetRunsNothing` at 0 and `OvershootIsAtMostFive` at 1. -/
theorem witness_budgets : State.reset.status = .idle ∧ (0 : Int) ≤ 0 ∧ (0 : Int) < 1 := by decide
/-- Both SP clauses, each with a call that is run and SP at the end of the stack page before it. -/
theorem witness_ExecuteCountsCallsAndReports :
    (after (execute 1 { load 0xFFFC [0x20, 0x42, 0x42] with sLow := 0xFE })).map (fun t => (t.cfg.spPageWrap, t.sp)) =
        some (true, 0x0100) ∧
      (after (execute 1 (loadBytes 0xFFFC [0x20, 0x42, 0x42] { noWrap with sLow := 0xFE }))).map
        (fun t => (t.cfg.spPageWrap, t.sp)) = some (false, 0x0200) := by decide
/-- The bytes of V-UNK-4 under a budget of 2: one report, and by the table of R272 1 + 2 cycles. -/
theorem test_execute_reports_and_costs :
    (after (execute 2 (load 0xFFFC [0x02, 0xA9, 0x84]))).map (fun t => (t.cyclesConsumed, t.diag)) = some (3, [0x02]) := by
  decide
/-- `ExecuteNeverWrites` and `ExecuteWritesOnlyTheStackPage`: an `execute` that answers a next
state, with S even; S odd does change 0x0200 (V-JSR-3). -/
theorem witness_executes :
    State.reset.cfg.spPageWrap = true ∧ State.reset.sLow.toNat % 2 = 0 ∧
      (∃ t, execute 1 (load 0xFFFC [0x20, 0x42, 0x42]) = .next t) ∧
      (after (execute 1 { load 0xFFFC [0x20, 0x42, 0x42] with sLow := 0xFF })).map (fun t => t.mem.read 0x0200) =
        some 0xFF :=
  ⟨rfl, by decide, ⟨_, rfl⟩, by decide⟩

end Sys2Proof.Tests
end

/-! PROOFS. The step of a decoded window, and where it leaves PC (R36). -/

namespace Sys2Proof.Machine

/-- The decoder reads one instruction from the bytes at PC, and it is the one the machine fetches. -/
theorem eq_fetchInstr_of_decode {s : State} {i : Instr} {rest : List Byte}
    (h : decode s.cfg s.window = .ok (i, rest)) : i = (fetchInstr s).1 := by
  obtain ⟨rest', hf⟩ := fetchInstr_decode s
  rw [h] at hf
  cases hf
  rfl

/-- The step of an idle machine, once the bytes at PC are decoded: that instruction, run on the state after its fetch. -/
theorem step_of_decode {s : State} {i : Instr} {rest : List Byte} (hs : s.status = .idle)
    (h : decode s.cfg s.window = .ok (i, rest)) : step s = exec i (s.fetched i.length) := by
  rw [step_idle hs, eq_fetchInstr_of_decode h]

/-- Once its bytes are fetched, an instruction leaves PC alone, unless it is a JSR, which puts its target there (R36). -/
theorem exec_pc (i : Instr) (s : State) :
    ∃ t, exec i s = .next t ∧ ((∀ w, i ≠ .jsr w) → t.pc = s.pc) ∧ (∀ w, i = .jsr w → t.pc = w) := by
  rcases exec_cases i s with ⟨m, v, k, hload, -, he⟩ | ⟨w, rfl, he⟩ | ⟨op, rfl, he⟩
  · refine ⟨_, he, fun _ => by simp, ?_⟩
    rintro w rfl
    cases hload
  · refine ⟨_, he, fun hne => absurd rfl (hne w), ?_⟩
    rintro w' ⟨⟩
    rw [callSubroutine_eq]
  · exact ⟨_, he, fun _ => report_pc s op, fun w hj => nomatch hj⟩

/-- Settles O34: the fetch advances PC by the length, and of the meanings only JSR's writes PC afterwards. -/
theorem programCounterAdvance : Obligations.ProgramCounterAdvance := by
  intro s i rest hs hd
  obtain ⟨t, he, hkeep, hjump⟩ := exec_pc i (s.fetched i.length)
  obtain ⟨hmin, hmax⟩ := instr_length_bounds i
  refine ⟨t, (step_of_decode hs hd).trans he, hmin, hmax, fun hne => ?_, hjump, ?_⟩
  · rw [hkeep hne, fetched_pc, BitVec.toNat_ofNat]
  · rintro op rfl
    rfl

end Sys2Proof.Machine

/-! PROOFS. The memory port: a port read after a port write, and the frame of the write (R71). -/

namespace Sys2Proof.Machine

/-- The law of `Memory.read_write`, lifted to the ports: two words address the same cell only when they are equal. -/
theorem memRead_memWrite (p q : Word) (v : Byte) (s : State) :
    memRead q (memWrite p v s) = if q = p then v else memRead q s := by
  rw [memRead, read_memWrite, memRead]
  simp only [BitVec.toNat_inj]

/-- Of the state, the port write changes memory only. -/
theorem memWrite_eq (p : Word) (v : Byte) (s : State) :
    memWrite p v s = { s with mem := (memWrite p v s).mem } := rfl

/-- Settles O8, from the read-after-write law of the ports and the frame of the write. -/
theorem portReadAfterWrite : Obligations.PortReadAfterWrite :=
  fun p q v s => ⟨memRead_memWrite p q v s, memWrite_eq p v s⟩

end Sys2Proof.Machine

/-! PROOFS. The fetch unit: what a byte and a word fetch read, and the state they leave (R130, R131). -/

namespace Sys2Proof.Machine

/-- A word fetch reads the word at the old PC, low byte first. -/
theorem fetchWord_fst_toNat (s : State) : (fetchWord s).1.toNat = s.wordAt s.pc.toNat := by
  rw [fetchWord_eq, join_byteAt_toNat]

/-- A word fetch leaves the state of two fetched bytes. -/
theorem fetchWord_snd (s : State) : (fetchWord s).2 = s.fetched 2 := by
  rw [fetchWord_eq]

/-- Settles O11: the byte fetch, then the word and the state of the word fetch; `State.fetched` is the record the statement writes out. -/
theorem fetchUnit : Obligations.FetchUnit :=
  fun s => ⟨fetchByte_eq s, fetchWord_fst_toNat s, fetchWord_snd s⟩

end Sys2Proof.Machine

/-! PROOFS. The ALU functions and the flag detectors as numbers (R140, R142 to R144, R146, R147). -/

namespace Sys2Proof.Machine

/-- `zpindex` read as an address: the index wraps within page zero (R142). -/
theorem zext16_zpindex_toNat (b r : Byte) : (zext16 (zpindex b r)).toNat = (b.toNat + r.toNat) % 256 := by
  rw [zext16_toNat, zpindex_toNat]

/-- Z's detector, by the number of the byte (R146). -/
theorem iszero_iff (v : Byte) : iszero v = true ↔ v.toNat = 0 := by
  rw [iszero_eq, decide_eq_true_iff]
  exact BitVec.toNat_inj.symm

/-- N's detector, by the number of the byte (R147). -/
theorem isneg_iff (v : Byte) : isneg v = true ↔ 128 ≤ v.toNat := by
  rw [isneg_eq, decide_eq_true_iff]

/-- No byte raises both flags: 0 is below 128. -/
theorem not_iszero_and_isneg (v : Byte) : ¬ (iszero v = true ∧ isneg v = true) := by
  rw [iszero_iff, isneg_iff]
  omega

/-- Settles O5, function by function, from the number each one gives. -/
theorem aluFunctions : Obligations.AluFunctions :=
  ⟨inc16_toNat,
    fun b r => ⟨zpindex_toNat b r, zext16_zpindex_toNat b r⟩,
    absindex_toNat,
    fun w => ⟨hi_toNat w, lo_toNat w⟩,
    join_toNat,
    iszero_iff,
    fun v => ⟨isneg_iff v, not_iszero_and_isneg v⟩⟩

end Sys2Proof.Machine

/-! PROOFS. The addressing-mode resolver: the effective address and the charge of the six non-immediate modes (R162 to R167). -/

namespace Sys2Proof.Machine

/-- A charge after a fetch adds to the cycles of the bytes fetched; PC stays where the fetch left it. -/
theorem charge_fetched (s : State) (len k : Nat) :
    charge k (s.fetched len) = { s.fetched len with cyc := s.cyc - ((len + k : Nat) : Int) } := by
  ext1 <;> simp
  omega

/-- The zero-page index step after the operand byte: two cycles in all, with or without a wrap (R163, R164). -/
theorem indexZeroPage_fetched (s : State) (z r : Byte) :
    indexZeroPage z r (s.fetched 1) =
      (BitVec.ofNat 16 ((z.toNat + r.toNat) % 256), { s.fetched 1 with cyc := s.cyc - 2 }) := by
  rw [indexZeroPage_eq, charge_fetched]
  rfl

/-- The absolute index step after the operand word: two cycles in all, three when the address leaves the page of the base
(R166, R167). -/
theorem indexAbsolute_fetched (s : State) (w : Word) (r : Byte) :
    indexAbsolute w r (s.fetched 2) =
      (BitVec.ofNat 16 (w.toNat + r.toNat),
        { s.fetched 2 with
          cyc := s.cyc - if w.toNat / 256 = (w.toNat + r.toNat) % 65536 / 256 then 2 else 3 }) := by
  rw [indexAbsolute_eq, charge_fetched]
  split <;> rfl

theorem resolve_zp (s : State) :
    resolve .zp s = (.address (BitVec.ofNat 16 (s.byteAt s.pc.toNat).toNat), s.fetched 1) := by
  simp only [resolve, fetchByte_eq, zext16_eq]

theorem resolve_zpx (s : State) :
    resolve .zpx s = (.address (BitVec.ofNat 16 (((s.byteAt s.pc.toNat).toNat + s.x.toNat) % 256)),
      { s.fetched 1 with cyc := s.cyc - 2 }) := by
  simp only [resolve, fetchByte_eq, fetched_x, indexZeroPage_fetched]

theorem resolve_zpy (s : State) :
    resolve .zpy s = (.address (BitVec.ofNat 16 (((s.byteAt s.pc.toNat).toNat + s.y.toNat) % 256)),
      { s.fetched 1 with cyc := s.cyc - 2 }) := by
  simp only [resolve, fetchByte_eq, fetched_y, indexZeroPage_fetched]

theorem resolve_abs (s : State) :
    resolve .abs s = (.address (BitVec.ofNat 16 (s.wordAt s.pc.toNat)), s.fetched 2) := by
  simp only [resolve, fetchWord_eq, join_byteAt_eq]

theorem resolve_absx (s : State) :
    resolve .absx s = (.address (BitVec.ofNat 16 (s.wordAt s.pc.toNat + s.x.toNat)),
      { s.fetched 2 with
        cyc := s.cyc - if s.wordAt s.pc.toNat / 256 =
          (s.wordAt s.pc.toNat + s.x.toNat) % 65536 / 256 then 2 else 3 }) := by
  simp only [resolve, fetchWord_eq, fetched_x, indexAbsolute_fetched, join_byteAt_toNat]

theorem resolve_absy (s : State) :
    resolve .absy s = (.address (BitVec.ofNat 16 (s.wordAt s.pc.toNat + s.y.toNat)),
      { s.fetched 2 with
        cyc := s.cyc - if s.wordAt s.pc.toNat / 256 =
          (s.wordAt s.pc.toNat + s.y.toNat) % 65536 / 256 then 2 else 3 }) := by
  simp only [resolve, fetchWord_eq, fetched_y, indexAbsolute_fetched, join_byteAt_toNat]

/-- Settles O12, mode by mode: what the fetch unit reads, then the index step on the state it leaves. -/
theorem resolvedAddresses : Obligations.ResolvedAddresses :=
  fun s => ⟨resolve_zp s, resolve_zpx s, resolve_zpy s, resolve_abs s, resolve_absx s, resolve_absy s⟩

end Sys2Proof.Machine

/-! PROOFS. The step is the spec's own `Step()` (R184): an instruction whose operand was fetched ahead of its meaning does what the
spec's clause does when it fetches the operand itself. -/

namespace Sys2Proof.Machine

/-- Where the operand fetch leaves the machine: past the whole instruction, with its bytes paid for. -/
theorem fetchOperand_snd_fetched_one (f : Format) (s : State) :
    (fetchOperand f (s.fetched 1)).2 = s.fetched f.length := by
  cases f with
  | op => rfl
  | opB => simp only [fetchOperand, fetchByte_eq, fetched_fetched, Format.length]
  | opW => simp only [fetchOperand, fetchWord_eq, fetched_fetched, Format.length]

/-- A step of an idle machine, decoded, with its operand fetch still written out. -/
theorem step_eq_exec_fetchOperand {s : State} {o : Opcode} (hs : s.status = .idle)
    (h : decodeOpcode s.cfg (s.byteAt s.pc.toNat) = o) :
    step s = exec (assemble o (s.byteAt s.pc.toNat) (fetchOperand o.format (s.fetched 1)).1)
      (fetchOperand o.format (s.fetched 1)).2 := by
  rw [step_of_opcode hs h, fetchOperand_snd_fetched_one]

/-- `ExecLDA(m)` (R200), mode by mode: the resolver's operand fetch is the fetch unit's. In the one-byte modes the decoder takes the
operand back out of the word it was fetched into. -/
theorem exec_fetchOperand_lda (m : Mode) (op : Byte) (s : State) :
    exec (assemble (.lda m) op (fetchOperand (Opcode.lda m).format s).1) (fetchOperand (Opcode.lda m).format s).2 =
      .next (engineLda m s) := by
  cases m with
  | imm | zp | zpx | zpy =>
    simp only [Opcode.format, fetchOperand, assemble, lo_zext16]
    rfl
  | abs | absx | absy => rfl

/-- `ExecJSR()` (R220): the target word is the one the decoder fetched. -/
theorem exec_fetchOperand_jsr (op : Byte) (s : State) :
    exec (assemble .jsr op (fetchOperand Opcode.jsr.format s).1) (fetchOperand Opcode.jsr.format s).2 =
      .next (engineJsr s) := rfl

/-- An unknown opcode has no operand, so its meaning is entered right after the opcode fetch (R185). -/
theorem exec_fetchOperand_unknown (op : Byte) (s : State) :
    exec (assemble .unknown op (fetchOperand Opcode.unknown.format s).1) (fetchOperand Opcode.unknown.format s).2 =
      .next (report op s) := rfl

theorem engineStep_of_lda {s : State} {m : Mode} (h : decodeOpcode s.cfg (s.byteAt s.pc.toNat) = .lda m) :
    engineStep s = engineLda m (s.fetched 1) := by
  simp only [engineStep, fetchByte_eq, fetched_cfg, h]

theorem engineStep_of_jsr {s : State} (h : decodeOpcode s.cfg (s.byteAt s.pc.toNat) = .jsr) :
    engineStep s = engineJsr (s.fetched 1) := by
  simp only [engineStep, fetchByte_eq, fetched_cfg, h]

theorem engineStep_of_unknown {s : State} (h : decodeOpcode s.cfg (s.byteAt s.pc.toNat) = .unknown) :
    engineStep s = report (s.byteAt s.pc.toNat) (s.fetched 1) := by
  simp only [engineStep, fetchByte_eq, fetched_cfg, h]

/-- Settles O24, by the three branches of `Step()`'s case split on the decoded opcode. -/
theorem stepIsSpecStep : Obligations.StepIsSpecStep := by
  intro s hs
  cases h : decodeOpcode s.cfg (s.byteAt s.pc.toNat) with
  | lda m => rw [step_eq_exec_fetchOperand hs h, exec_fetchOperand_lda, engineStep_of_lda h]
  | jsr => rw [step_eq_exec_fetchOperand hs h, exec_fetchOperand_jsr, engineStep_of_jsr h]
  | unknown => rw [step_eq_exec_fetchOperand hs h, exec_fetchOperand_unknown, engineStep_of_unknown h]

end Sys2Proof.Machine

/-! PROOFS. A call with nothing to spend (R181). -/

namespace Sys2Proof.Machine

/-- At the start of a call the whole budget remains, so nothing is consumed yet. -/
theorem cyclesConsumed_beginExecute (k : Int) (s : State) : (beginExecute k s).cyclesConsumed = 0 :=
  Int.sub_self k

/-- With nothing to spend, the loop's first test ends the call where it began. -/
theorem execute_of_nonpos {s : State} {k : Int} (hs : s.status = .idle) (hk : k ≤ 0) :
    execute k s = .next (beginExecute k s) := by
  have hcyc : (beginExecute k s).cyc ≤ 0 := hk
  rw [execute_idle hs, runLoop_done _ hcyc]

/-- Settles O46: the call answers the state it loads, which is the record the statement writes out. -/
theorem nonPositiveBudgetRunsNothing : Obligations.NonPositiveBudgetRunsNothing :=
  fun s k hs hk => ⟨beginExecute k s, execute_of_nonpos hs hk, cyclesConsumed_beginExecute k s, rfl⟩

end Sys2Proof.Machine

/-! PROOFS. The loads as whole steps (R200 to R202): a one-byte load with its operand, and the frame of a load in every
mode. -/

namespace Sys2Proof.Machine

/-- The operand of a one-byte load is the byte after the opcode. -/
theorem lo_fetchOperand_opB_fetched_one (s : State) :
    lo (fetchOperand .opB (s.fetched 1)).1 = s.byteAt (s.pc.toNat + 1) := by
  rw [fetchOperand, fetchByte_fetched_one, lo_zext16]

/-- `LDA #b` after the fetch (R201). -/
theorem exec_ldaImm (b : Byte) (s : State) : exec (.ldaImm b) s = .next (s.afterLoad b 0 0) := by
  simp only [exec, execLdaImm, loadAccumulator_eq]

/-- `LDA z` after the fetch (R202). -/
theorem exec_ldaZp (z : Byte) (s : State) :
    exec (.ldaZp z) s = .next (s.afterLoad (s.byteAt z.toNat) 0 1) := by
  simp only [exec, execLdaZp, loadFrom_eq, zext16_toNat]

/-- A step whose opcode byte decodes to LDA immediate fetches two bytes and is done. -/
theorem step_of_lda_imm {s : State} (hs : s.status = .idle)
    (h : decodeOpcode s.cfg (s.byteAt s.pc.toNat) = .lda .imm) :
    step s = .next (s.afterLoad (s.byteAt (s.pc.toNat + 1)) 2 2) :=
  calc step s
    _ = exec (.ldaImm (lo (fetchOperand .opB (s.fetched 1)).1)) (s.fetched 2) := step_of_opcode hs h
    _ = .next (s.afterLoad (s.byteAt (s.pc.toNat + 1)) 2 2) := by
      rw [lo_fetchOperand_opB_fetched_one, exec_ldaImm, fetched_afterLoad]

/-- A step whose opcode byte decodes to LDA zero-page reads one more byte, in page zero. -/
theorem step_of_lda_zp {s : State} (hs : s.status = .idle)
    (h : decodeOpcode s.cfg (s.byteAt s.pc.toNat) = .lda .zp) :
    step s = .next (s.afterLoad (s.byteAt (s.byteAt (s.pc.toNat + 1)).toNat) 2 3) :=
  calc step s
    _ = exec (.ldaZp (lo (fetchOperand .opB (s.fetched 1)).1)) (s.fetched 2) := step_of_opcode hs h
    _ = .next (s.afterLoad (s.byteAt (s.byteAt (s.pc.toNat + 1)).toNat) 2 3) := by
      rw [lo_fetchOperand_opB_fetched_one, exec_ldaZp, fetched_afterLoad, byteAt_fetched]

/-- Settles O26: 0xA9 is the first row of every opcode map, so it decodes to LDA immediate under any parameters. -/
theorem loadImmediateStep : Obligations.LoadImmediateStep := by
  intro s hs hop
  apply step_of_lda_imm hs
  rw [hop]
  exact decodeOpcode_ldaImm s.cfg

/-- Settles O27: under legal parameters `OPC_LDA_ZP` decodes to its own row. -/
theorem loadZeroPageStep : Obligations.LoadZeroPageStep := by
  intro s hs hwf hop
  apply step_of_lda_zp hs
  rw [hop]
  exact decodeOpcode_ldaZp hwf

/-- `Resolve` in any mode writes PC and the counter only (R160). -/
theorem resolve_snd_writes (m : Mode) (s : State) :
    ∃ p k, (resolve m s).2 = { s with pc := p, cyc := k } := by
  cases m with
  | imm => exact ⟨_, _, rfl⟩
  | zp => exact ⟨_, _, congrArg Prod.snd (resolve_zp s)⟩
  | zpx => exact ⟨_, _, congrArg Prod.snd (resolve_zpx s)⟩
  | zpy => exact ⟨_, _, congrArg Prod.snd (resolve_zpy s)⟩
  | abs => exact ⟨_, _, congrArg Prod.snd (resolve_abs s)⟩
  | absx => exact ⟨_, _, congrArg Prod.snd (resolve_absx s)⟩
  | absy => exact ⟨_, _, congrArg Prod.snd (resolve_absy s)⟩

/-- `OperandValue` writes PC and the counter only, whichever branch it takes (R169). -/
theorem operandValue_snd_writes (o : Operand) (s : State) :
    ∃ p k, (operandValue o s).2 = { s with pc := p, cyc := k } := by
  cases o with
  | immediate => exact ⟨_, _, congrArg Prod.snd (fetchByte_eq s)⟩
  | address a => exact ⟨_, _, rfl⟩

/-- `ExecLDA` after the opcode fetch (R200): the resolver and the operand read have written PC and the counter only, and the
load of the operand value is all that follows. -/
theorem engineLda_fetched_one (m : Mode) (s : State) :
    ∃ v p k, operandValue (resolve m (s.fetched 1)).1 (resolve m (s.fetched 1)).2 = (v, { s with pc := p, cyc := k }) ∧
      engineLda m (s.fetched 1) = loadAccumulator v { s with pc := p, cyc := k } := by
  obtain ⟨_, _, hr⟩ := resolve_snd_writes m (s.fetched 1)
  obtain ⟨p, k, ho⟩ := operandValue_snd_writes (resolve m (s.fetched 1)).1 (resolve m (s.fetched 1)).2
  have hu : (operandValue (resolve m (s.fetched 1)).1 (resolve m (s.fetched 1)).2).2 = { s with pc := p, cyc := k } := by
    rw [ho, hr]
    rfl
  exact ⟨_, p, k, Prod.ext rfl hu, congrArg (loadAccumulator _) hu⟩

/-- A step whose opcode byte decodes to a load is `ExecLDA` after the opcode fetch. -/
theorem step_of_lda {s : State} {m : Mode} (hs : s.status = .idle)
    (h : decodeOpcode s.cfg (s.byteAt s.pc.toNat) = .lda m) :
    step s = .next (engineLda m (s.fetched 1)) := by
  rw [stepIsSpecStep s hs, engineStep_of_lda h]

theorem iszero_eq_decide_toNat (v : Byte) : iszero v = decide (v.toNat = 0) :=
  Bool.eq_iff_iff.2 ((iszero_iff v).trans decide_eq_true_iff.symm)

/-- Settles O31: the step ends in `loadAccumulator v`, on a state that differs from the start in PC and the counter only. -/
theorem loadStepRule : Obligations.LoadStepRule := by
  intro s m hs hd
  obtain ⟨v, p, k, hvalue, hload⟩ := engineLda_fetched_one m s
  have hstep : step s = .next (loadAccumulator v { s with pc := p, cyc := k }) := by
    rw [step_of_lda hs hd, hload]
  refine ⟨_, v, { s with pc := p, cyc := k }, hstep, ?_, rfl, rfl, rfl,
    iszero_eq_decide_toNat v, isneg_eq v, not_iszero_and_isneg v,
    rfl, rfl, rfl, rfl, rfl, rfl, rfl, rfl, rfl, rfl, rfl, rfl, rfl, fun _ => rfl⟩
  rw [fetchByte_eq, hvalue]

end Sys2Proof.Machine

/-! PROOFS. The reset operation: the fields it writes and those it keeps (R260, R261). -/

namespace Sys2Proof.Machine

/-- Both readings of SP give the same word after reset: the high byte it stores is the one the wrap fixes (R38, R260). -/
theorem hostReset_sp (s : State) : (hostReset s).sp = 0x0100 :=
  calc (hostReset s).sp
    _ = join 0x01 0x00 := ite_self (join 0x01 0x00)
    _ = 0x0100 := by decide

/-- Reset leaves memory alone unless the OPEN parameter is set (R261, D7). -/
theorem hostReset_mem_of_not_clears {s : State} (h : s.cfg.resetClearsMemory = false) :
    (hostReset s).mem = s.mem :=
  if_neg (Bool.eq_false_iff.1 h)

/-- Settles O42: SP and memory are the two fields that depend on a parameter; every other one is written or kept as the definition of
`hostReset` says. -/
theorem resetRule : Obligations.ResetRule :=
  fun s => ⟨rfl, congrArg BitVec.toNat (hostReset_sp s), rfl, rfl, rfl, rfl, rfl, rfl, rfl, rfl, rfl, rfl, rfl, rfl, rfl, rfl, rfl,
    hostReset_mem_of_not_clears⟩

end Sys2Proof.Machine

/-! PROOFS. The encoder and the decoder: the round trip both ways, and how many bytes are assigned (R100 to R113). -/

namespace Sys2Proof

open Machine

/-- The decoder on an opcode byte whose operand bytes are all there. -/
theorem decode_cons {cfg : Config} {op : Byte} {o : Opcode} {bs rest : List Byte} {w : Word} {i : Instr}
    (ho : decodeOpcode cfg op = o) (hw : takeOperand o.format bs = some (w, rest)) (hi : assemble o op w = i) :
    decode cfg (op :: bs) = .ok (i, rest) := by
  simp only [decode, ho, hw, hi]

/-- Settles O2, form by form: the opcode byte decodes to its row, and the operand bytes join to the operand they were cut from. -/
theorem decodeOfEncode : Obligations.DecodeOfEncode := by
  intro cfg i hcfg hi
  cases i with
  | ldaImm b => exact ⟨_, rfl, fun _ => decode_cons (decodeOpcode_ldaImm cfg) rfl (congrArg Instr.ldaImm (lo_zext16 b))⟩
  | ldaZp z => exact ⟨_, rfl, fun _ => decode_cons (decodeOpcode_ldaZp hcfg) rfl (congrArg Instr.ldaZp (lo_zext16 z))⟩
  | ldaZpX z => exact ⟨_, rfl, fun _ => decode_cons (decodeOpcode_ldaZpX hcfg) rfl (congrArg Instr.ldaZpX (lo_zext16 z))⟩
  | ldaZpY z =>
    obtain ⟨q, hq⟩ := Option.isSome_iff_exists.1 hi
    exact ⟨[q, z], congrArg (Option.map fun q => [q, z]) hq,
      fun _ => decode_cons (decodeOpcode_ldaZpY hcfg hq) rfl (congrArg Instr.ldaZpY (lo_zext16 z))⟩
  | ldaAbs w => exact ⟨_, rfl, fun _ => decode_cons (decodeOpcode_ldaAbs hcfg) rfl (congrArg Instr.ldaAbs (join_hi_lo w))⟩
  | ldaAbsX w => exact ⟨_, rfl, fun _ => decode_cons (decodeOpcode_ldaAbsX hcfg) rfl (congrArg Instr.ldaAbsX (join_hi_lo w))⟩
  | ldaAbsY w => exact ⟨_, rfl, fun _ => decode_cons (decodeOpcode_ldaAbsY hcfg) rfl (congrArg Instr.ldaAbsY (join_hi_lo w))⟩
  | jsr w => exact ⟨_, rfl, fun _ => decode_cons (decodeOpcode_jsr hcfg) rfl (congrArg Instr.jsr (join_hi_lo w))⟩
  | unknown op =>
    have hop : decodeOpcode cfg op = .unknown := (decodeOpcode_eq_unknown_iff cfg op).2 (of_decide_eq_true hi)
    exact ⟨_, rfl, fun _ => decode_cons hop rfl rfl⟩

/-- The bytes an operand of a format takes up, low byte first (R100, R104). -/
def operandBytes : Format → Word → List Byte
  | .op, _ => []
  | .opB, w => [lo w]
  | .opW, w => [lo w, hi w]

/-- What was taken off a list as an operand are the bytes of that operand. -/
theorem eq_operandBytes_append_of_takeOperand {f : Format} {bs rest : List Byte} {w : Word}
    (h : takeOperand f bs = some (w, rest)) : bs = operandBytes f w ++ rest := by
  match f, bs, h with
  | .op, _, rfl => rfl
  | .opB, b :: _, rfl => simp [operandBytes]
  | .opW, low :: high :: _, rfl => simp [operandBytes]

/-- A successful decoding starts at an opcode byte with its operand behind it. -/
theorem exists_cons_of_decode {cfg : Config} {bs rest : List Byte} {i : Instr} (h : decode cfg bs = .ok (i, rest)) :
    ∃ op w, bs = op :: (operandBytes (decodeOpcode cfg op).format w ++ rest) ∧ i = assemble (decodeOpcode cfg op) op w := by
  cases bs with
  | nil => cases h
  | cons op bs =>
    rw [decode] at h
    split at h
    next w rest' hw =>
      cases h
      exact ⟨op, w, congrArg (op :: ·) (eq_operandBytes_append_of_takeOperand hw), rfl⟩
    next => cases h

/-- What is assembled from a decoded opcode byte is well-formed, and is encoded as that byte and its operand. -/
theorem wf_and_encode_assemble (cfg : Config) (op : Byte) (w : Word) :
    (assemble (decodeOpcode cfg op) op w).wf cfg = true ∧
      encode cfg (assemble (decodeOpcode cfg op) op w) = some (op :: operandBytes (decodeOpcode cfg op).format w) := by
  rcases decodeOpcode_cases cfg op with ⟨ho, rfl⟩ | ⟨ho, rfl⟩ | ⟨ho, rfl⟩ | ⟨ho, hq⟩ | ⟨ho, rfl⟩ | ⟨ho, rfl⟩ |
    ⟨ho, rfl⟩ | ⟨ho, rfl⟩ | ⟨ho, hop⟩ <;> rw [ho]
  · exact ⟨rfl, rfl⟩
  · exact ⟨rfl, rfl⟩
  · exact ⟨rfl, rfl⟩
  · exact ⟨Option.isSome_iff_exists.2 ⟨op, hq⟩, congrArg (Option.map fun q => [q, lo w]) hq⟩
  · exact ⟨rfl, rfl⟩
  · exact ⟨rfl, rfl⟩
  · exact ⟨rfl, rfl⟩
  · exact ⟨rfl, rfl⟩
  · exact ⟨decide_eq_true hop, rfl⟩

/-- Settles O3, from the shape of a decoded list and the encoding of what is assembled from it. -/
theorem encodeOfDecode : Obligations.EncodeOfDecode := by
  intro cfg bs i rest h
  obtain ⟨op, w, rfl, rfl⟩ := exists_cons_of_decode h
  obtain ⟨hwf, henc⟩ := wf_and_encode_assemble cfg op w
  exact ⟨hwf, _, henc, rfl⟩

/-- The 256 byte values, each once. -/
theorem nodup_map_ofNat_range : ((List.range 256).map (BitVec.ofNat 8)).Nodup := by
  refine List.nodup_range.map_on fun m hm n hn h => ?_
  rw [List.mem_range] at hm hn
  have h' := congrArg BitVec.toNat h
  simp only [BitVec.toNat_ofNat] at h'
  omega

theorem mem_map_ofNat_range (b : Byte) : b ∈ (List.range 256).map (BitVec.ofNat 8) :=
  List.mem_map.2 ⟨b.toNat, List.mem_range.2 b.isLt, BitVec.ofNat_toNat 8 b⟩

/-- A list of different bytes holds as many of the 256 byte values as it is long. -/
theorem countP_range_mem {bs : List Byte} (h : bs.Nodup) :
    (List.range 256).countP (fun k => decide (BitVec.ofNat 8 k ∈ bs)) = bs.length := by
  have hperm : (((List.range 256).map (BitVec.ofNat 8)).filter (· ∈ bs)).Perm bs :=
    (List.perm_ext_iff_of_nodup (nodup_map_ofNat_range.filter _) h).2 fun b => by
      simp only [List.mem_filter, mem_map_ofNat_range, true_and, decide_eq_true_eq]
  rw [← hperm.length_eq, ← List.countP_eq_length_filter, List.countP_map]
  rfl

theorem opcodeBytes_length (cfg : Config) : cfg.opcodeBytes.length = if cfg.opcLdaZpY.isSome then 8 else 7 := by
  cases h : cfg.opcLdaZpY <;> simp [Config.opcodeBytes, h]

/-- Settles O4: the bytes that decode to an instruction are the assigned ones, which legal parameters keep apart. -/
theorem assignedOpcodeCount : Obligations.AssignedOpcodeCount := by
  intro cfg hcfg
  have hmem (b : Byte) : decodeOpcode cfg b ≠ .unknown ↔ b ∈ cfg.opcodeBytes := by
    rw [ne_eq, decodeOpcode_eq_unknown_iff, not_not]
  simp only [hmem]
  rw [countP_range_mem (of_decide_eq_true hcfg), opcodeBytes_length]

/-- Settles O1: closed bytes under closed parameters, evaluated. -/
theorem specBytesDecode : Obligations.SpecBytesDecode := by
  unfold Obligations.SpecBytesDecode
  decide

end Sys2Proof

/-! PROOFS. The canonical form of memory, and a stored word read back (R70, R75, R80). -/

namespace Sys2Proof.Machine

theorem Memory.wfFrom_cons {low k : Nat} {v : Byte} {rest : Memory} :
    Memory.wfFrom low ((k, v) :: rest) = true ↔
      low ≤ k ∧ k < 65536 ∧ v ≠ unlistedByte ∧ rest.wfFrom (k + 1) = true := by
  simp only [Memory.wfFrom, Bool.and_eq_true, decide_eq_true_eq, and_assoc]

theorem Memory.read_cons_self (k : Nat) (v : Byte) (rest : Memory) : Memory.read ((k, v) :: rest) k = v :=
  if_pos rfl

theorem Memory.read_cons_of_ne {k n : Nat} (h : k ≠ n) (v : Byte) (rest : Memory) :
    Memory.read ((k, v) :: rest) n = rest.read n :=
  if_neg h

/-- A memory that shows the bytes of a canonical one starts no later than the first address listed there, which shows a byte no
unlisted address shows. -/
theorem Memory.start_le_head {low low' k : Nat} {v : Byte} {rest m : Memory}
    (hcons : Memory.wfFrom low ((k, v) :: rest) = true) (hm : m.wfFrom low' = true)
    (hread : m.read k = Memory.read ((k, v) :: rest) k) : low' ≤ k := by
  obtain ⟨-, -, hv, -⟩ := wfFrom_cons.1 hcons
  by_contra hlt
  rw [read_cons_self, read_of_lt_wfFrom hm (by omega)] at hread
  exact hv hread.symm

/-- No canonical memory with a listed address shows the bytes of the empty list. -/
theorem Memory.not_read_eq_nil {low k : Nat} {v : Byte} {rest : Memory}
    (hcons : Memory.wfFrom low ((k, v) :: rest) = true)
    (hread : ∀ n, n < 65536 → Memory.read [] n = Memory.read ((k, v) :: rest) n) : False := by
  obtain ⟨-, hk, -, -⟩ := wfFrom_cons.1 hcons
  have hle : k + 1 ≤ k := start_le_head (low' := k + 1) hcons rfl (hread k hk)
  omega

/-- The tails of two canonical memories with one head address show the same bytes: below their start nothing is listed, and above it
the heads are not read. -/
theorem Memory.read_tail_eq {k : Nat} {v : Byte} {rest rest' : Memory}
    (hrest : rest.wfFrom (k + 1) = true) (hrest' : rest'.wfFrom (k + 1) = true)
    (hread : ∀ n, n < 65536 → Memory.read ((k, v) :: rest) n = Memory.read ((k, v) :: rest') n) :
    ∀ n, n < 65536 → rest.read n = rest'.read n := by
  intro n hn
  by_cases hnk : n < k + 1
  · rw [read_of_lt_wfFrom hrest hnk, read_of_lt_wfFrom hrest' hnk]
  · have hne : k ≠ n := by omega
    rw [← read_cons_of_ne hne v rest, hread n hn, read_cons_of_ne hne]

/-- Canonical memories are what they show, by induction along both lists: equal bytes force equal head addresses, then equal head
bytes, then equal tails. -/
theorem Memory.eq_of_read_eq {m m' : Memory} {low low' : Nat} (hm : m.wfFrom low = true) (hm' : m'.wfFrom low' = true)
    (hread : ∀ n, n < 65536 → m.read n = m'.read n) : m = m' := by
  induction m generalizing m' low low' with
  | nil =>
    cases m' with
    | nil => rfl
    | cons cell' rest' => exact (not_read_eq_nil hm' hread).elim
  | cons cell rest ih =>
    obtain ⟨k, v⟩ := cell
    cases m' with
    | nil => exact (not_read_eq_nil hm fun n hn => (hread n hn).symm).elim
    | cons cell' rest' =>
      obtain ⟨k', v'⟩ := cell'
      obtain ⟨-, hk, hv, hrest⟩ := wfFrom_cons.1 hm
      obtain ⟨-, hk', hv', hrest'⟩ := wfFrom_cons.1 hm'
      have hle : k' ≤ k := start_le_head hm (wfFrom_cons.2 ⟨le_rfl, hk', hv', hrest'⟩) (hread k hk).symm
      have hge : k ≤ k' := start_le_head hm' (wfFrom_cons.2 ⟨le_rfl, hk, hv, hrest⟩) (hread k' hk')
      obtain rfl : k = k' := by omega
      obtain rfl : v = v' := by simpa only [read_cons_self] using hread k hk
      rw [ih hrest hrest' (read_tail_eq hrest hrest' hread)]

/-- Settles O9, from address 0. -/
theorem canonicalMemoryIsItsContents : Obligations.CanonicalMemoryIsItsContents :=
  fun _ _ hm hm' hread => Memory.eq_of_read_eq hm hm' hread

/-- A word write changes no byte but the two it stores. -/
theorem byteAt_writeWord_of_ne (p w : Word) (s : State) {n : Nat} (hn : n < 65536) (hlow : n ≠ p.toNat)
    (hhigh : n ≠ (p.toNat + 1) % 65536) : (writeWord p w s).byteAt n = s.byteAt n := by
  rw [State.byteAt, State.byteAt, Nat.mod_eq_of_lt hn, read_writeWord, if_neg hhigh, if_neg hlow]

/-- A word fetch at the address of a word write reads the word back. -/
theorem fetchWord_writeWord (p w : Word) (s : State) : (fetchWord ((writeWord p w s).setPc p)).1 = w :=
  calc (fetchWord ((writeWord p w s).setPc p)).1
    _ = join ((writeWord p w s).byteAt (p.toNat + 1)) ((writeWord p w s).byteAt p.toNat) := by rw [fetchWord_eq]; rfl
    _ = w := by rw [byteAt_writeWord_high, byteAt_writeWord_low, join_hi_lo]

/-- Settles O10: the two bytes, the frame and the charge of the write, then the word fetch. -/
theorem writtenWordReadsBack : Obligations.WrittenWordReadsBack :=
  fun p w s => ⟨(byteAt_writeWord_low s p w).trans (lo_eq w), (byteAt_writeWord_high s p w).trans (hi_eq w),
    fun _ hn hlow hhigh => byteAt_writeWord_of_ne p w s hn hlow hhigh, congrArg State.cyc (writeWord_eq s p w),
    fetchWord_writeWord p w s⟩

end Sys2Proof.Machine

/-! PROOFS. The remaining functions as numbers, the operand read and the stack pointer (R38, R141, R145, R148, R160, R169). -/

namespace Sys2Proof.Machine

/-- `dec16` without the wrap written as an addition: 0 goes to 65535, any other word one down (R141). -/
theorem dec16_toNat_eq_ite (p : Word) : (dec16 p).toNat = if p.toNat = 0 then 65535 else p.toNat - 1 := by
  have := p.isLt
  rw [dec16_toNat]
  split <;> omega

/-- Settles O6, from the number each function gives. -/
theorem stackAndReturnArithmetic : Obligations.StackAndReturnArithmetic :=
  ⟨dec16_toNat_eq_ite, spadvance_toNat⟩

/-- Settles O7, from the page crossing of an indexed address as a decision. -/
theorem pageCrossIsCarry : Obligations.PageCrossIsCarry := by
  intro w r
  rw [pagecross_absindex, decide_eq_true_iff]

/-- Settles O13, mode by mode: the immediate mode touches nothing, and any other answers the address its own lemma gives. -/
theorem resolverWritesPcAndCyclesOnly : Obligations.ResolverWritesPcAndCyclesOnly := by
  intro m s
  cases m with
  | imm => exact ⟨.immediate, s.pc, 0, by simp [resolve], iff_of_true rfl rfl⟩
  | zp => exact ⟨_, _, 1, resolve_zp s, iff_of_false nofun nofun⟩
  | zpx => exact ⟨_, _, 2, resolve_zpx s, iff_of_false nofun nofun⟩
  | zpy => exact ⟨_, _, 2, resolve_zpy s, iff_of_false nofun nofun⟩
  | abs => exact ⟨_, _, 2, resolve_abs s, iff_of_false nofun nofun⟩
  | absx =>
    rw [resolve_absx]
    split
    · exact ⟨_, _, 2, rfl, iff_of_false nofun nofun⟩
    · exact ⟨_, _, 3, rfl, iff_of_false nofun nofun⟩
  | absy =>
    rw [resolve_absy]
    split
    · exact ⟨_, _, 2, rfl, iff_of_false nofun nofun⟩
    · exact ⟨_, _, 3, rfl, iff_of_false nofun nofun⟩

/-- The address branch of `OperandValue` reads the byte at the address for one cycle (R74, R169). -/
theorem operandValue_address (p : Word) (s : State) :
    operandValue (.address p) s = (s.byteAt p.toNat, { s with cyc := s.cyc - 1 }) :=
  congrArg (·, charge 1 s) (memRead_eq s p)

/-- Settles O14: the immediate branch is a byte fetch, and so pays for one byte. -/
theorem operandValueRule : Obligations.OperandValueRule :=
  fun s p => ⟨rfl, operandValue_address p s, congrArg (fun f => f.2.cyc) (fetchByte_eq s)⟩

/-- What a write to SP leaves in the stored byte, under either reading of `SP_PAGE_WRAP` (R38). -/
theorem setSp_sLow (w : Word) (s : State) : (s.setSp w).sLow = lo w := by
  unfold State.setSp
  split <;> rfl

/-- Under the wrap a write to SP drops the high byte (R38). -/
theorem setSp_spHigh_of_wrap (w : Word) {s : State} (h : s.cfg.spPageWrap = true) : (s.setSp w).spHigh = s.spHigh := by
  rw [State.setSp, if_pos h]

/-- Settles O15: under the wrap the stored byte is all that varies, without it SP reads back whole. -/
theorem stackPointerIsInItsPage : Obligations.StackPointerIsInItsPage := by
  intro s w
  have hlow : (s.setSp w).sLow.toNat = w.toNat % 256 := by rw [setSp_sLow, lo_toNat]
  refine ⟨fun h => ⟨sp_of_wrap s h, ?_, hlow⟩, sp_setSp_of_not_wrap s w⟩
  rw [sp_of_wrap (s.setSp w) (by rwa [setSp_cfg]), hlow]

end Sys2Proof.Machine

/-! PROOFS. The meanings once their bytes are fetched: each completes, with its result and its frame (R185, R200 to R207, R220). -/

namespace Sys2Proof.Machine

/-! ## Loads -/

/-- A word that came from a number shows the byte at that number. -/
theorem byteAt_toNat_ofNat (s : State) (n : Nat) : s.byteAt (BitVec.ofNat 16 n).toNat = s.byteAt n := by
  rw [BitVec.toNat_ofNat, byteAt_mod]

/-- The data read after a zero-page index step: two cycles with it, inside the zero page (R163, R164, R169). -/
theorem loadFrom_indexZeroPage (z r : Byte) (s : State) :
    loadFrom (indexZeroPage z r s).1 (indexZeroPage z r s).2 =
      s.afterLoad (s.byteAt ((z.toNat + r.toNat) % 256)) 0 2 := by
  simp only [indexZeroPage_eq, loadFrom_charge, byteAt_toNat_ofNat]

/-- The data read after an absolute index step: the cycle of the index step is paid on a carry only (R145, R166, R167, R169). -/
theorem loadFrom_indexAbsolute (w : Word) (r : Byte) (s : State) :
    loadFrom (indexAbsolute w r s).1 (indexAbsolute w r s).2 =
      s.afterLoad (s.byteAt (w.toNat + r.toNat)) 0 (if 256 ≤ w.toNat % 256 + r.toNat then 2 else 1) := by
  simp only [indexAbsolute, chargeCross_absindex, loadFrom_charge, absindex_toNat, byteAt_mod]
  split <;> rfl

theorem exec_ldaZpX (z : Byte) (s : State) :
    exec (.ldaZpX z) s = .next (s.afterLoad (s.byteAt ((z.toNat + s.x.toNat) % 256)) 0 2) :=
  congrArg Host.Outcome.next (loadFrom_indexZeroPage z s.x s)

theorem exec_ldaZpY (z : Byte) (s : State) :
    exec (.ldaZpY z) s = .next (s.afterLoad (s.byteAt ((z.toNat + s.y.toNat) % 256)) 0 2) :=
  congrArg Host.Outcome.next (loadFrom_indexZeroPage z s.y s)

theorem exec_ldaAbs (w : Word) (s : State) : exec (.ldaAbs w) s = .next (s.afterLoad (s.byteAt w.toNat) 0 1) :=
  congrArg Host.Outcome.next (loadFrom_eq s w)

theorem exec_ldaAbsX (w : Word) (s : State) :
    exec (.ldaAbsX w) s = .next (s.afterLoad (s.byteAt (w.toNat + s.x.toNat)) 0
      (if 256 ≤ w.toNat % 256 + s.x.toNat then 2 else 1)) :=
  congrArg Host.Outcome.next (loadFrom_indexAbsolute w s.x s)

theorem exec_ldaAbsY (w : Word) (s : State) :
    exec (.ldaAbsY w) s = .next (s.afterLoad (s.byteAt (w.toNat + s.y.toNat)) 0
      (if 256 ≤ w.toNat % 256 + s.y.toNat then 2 else 1)) :=
  congrArg Host.Outcome.next (loadFrom_indexAbsolute w s.y s)

/-- Settles O16, one meaning at a time. -/
theorem unindexedLoadsComplete : Obligations.UnindexedLoadsComplete :=
  fun s => ⟨fun b => exec_ldaImm b s, fun z => exec_ldaZp z s, fun w => exec_ldaAbs w s⟩

/-- Settles O17, one meaning at a time. -/
theorem indexedLoadsComplete : Obligations.IndexedLoadsComplete :=
  fun s => ⟨fun z => exec_ldaZpX z s, fun z => exec_ldaZpY z s, fun w => exec_ldaAbsX w s, fun w => exec_ldaAbsY w s⟩

/-- Settles O20: every load ends in `State.afterLoad` of no further bytes, which writes A, Z, N and the counter. -/
theorem loadFrame : Obligations.LoadFrame := by
  intro i m s t hi h
  obtain ⟨v, k, -, he⟩ := exec_load hi s
  rw [he] at h
  cases h
  exact ⟨BitVec.ofNat_toNat 16 s.pc, rfl, rfl, rfl, rfl, rfl, rfl, rfl, rfl, rfl, rfl, rfl, rfl, rfl, fun _ => rfl⟩

/-! ## The call, field by field -/

section
variable (w : Word) (s : State)

@[simp] theorem callSubroutine_pc : (callSubroutine w s).pc = w := by rw [callSubroutine_eq]
@[simp] theorem callSubroutine_sLow : (callSubroutine w s).sLow = (advanceSp s).sLow := by rw [callSubroutine_eq]
@[simp] theorem callSubroutine_spHigh : (callSubroutine w s).spHigh = (advanceSp s).spHigh := by rw [callSubroutine_eq]
@[simp] theorem callSubroutine_a : (callSubroutine w s).a = s.a := by rw [callSubroutine_eq]
@[simp] theorem callSubroutine_x : (callSubroutine w s).x = s.x := by rw [callSubroutine_eq]
@[simp] theorem callSubroutine_y : (callSubroutine w s).y = s.y := by rw [callSubroutine_eq]
@[simp] theorem callSubroutine_c : (callSubroutine w s).c = s.c := by rw [callSubroutine_eq]
@[simp] theorem callSubroutine_z : (callSubroutine w s).z = s.z := by rw [callSubroutine_eq]
@[simp] theorem callSubroutine_i : (callSubroutine w s).i = s.i := by rw [callSubroutine_eq]
@[simp] theorem callSubroutine_d : (callSubroutine w s).d = s.d := by rw [callSubroutine_eq]
@[simp] theorem callSubroutine_b : (callSubroutine w s).b = s.b := by rw [callSubroutine_eq]
@[simp] theorem callSubroutine_v : (callSubroutine w s).v = s.v := by rw [callSubroutine_eq]
@[simp] theorem callSubroutine_n : (callSubroutine w s).n = s.n := by rw [callSubroutine_eq]
@[simp] theorem callSubroutine_cyc : (callSubroutine w s).cyc = s.cyc - 3 := by rw [callSubroutine_eq]
@[simp] theorem callSubroutine_budget : (callSubroutine w s).budget = s.budget := by rw [callSubroutine_eq]
@[simp] theorem callSubroutine_diag : (callSubroutine w s).diag = s.diag := by rw [callSubroutine_eq]
@[simp] theorem callSubroutine_status : (callSubroutine w s).status = s.status := by rw [callSubroutine_eq]
@[simp] theorem callSubroutine_mem : (callSubroutine w s).mem = (writeWord s.sp (dec16 s.pc) s).mem := by
  rw [callSubroutine_eq]
@[simp] theorem callSubroutine_cfg : (callSubroutine w s).cfg = s.cfg := by rw [callSubroutine_eq]

end

/-- `JSR w` after the fetch (R220). -/
theorem exec_jsr (w : Word) (s : State) : exec (.jsr w) s = .next (callSubroutine w s) := rfl

/-- Under the wrap an advance of SP adds 2 to the stored byte, modulo 256 (R148). -/
theorem advanceSp_sLow_of_wrap {s : State} (h : s.cfg.spPageWrap = true) : (advanceSp s).sLow = spadvance s.sLow := by
  rw [advanceSp, if_pos h]

/-- Under the wrap an advance of SP does not write the high byte (R38). -/
theorem advanceSp_spHigh_of_wrap {s : State} (h : s.cfg.spPageWrap = true) : (advanceSp s).spHigh = s.spHigh := by
  rw [advanceSp, if_pos h]

/-- Where SP is after a call, under either reading of `SP_PAGE_WRAP`. -/
theorem sp_callSubroutine_toNat (w : Word) (s : State) : (callSubroutine w s).sp.toNat =
    if s.cfg.spPageWrap then 256 + (s.sLow.toNat + 2) % 256 else (s.sp.toNat + 2) % 65536 := by
  rw [sp_callSubroutine, sp_advanceSp]

theorem lo_dec16 (p : Word) : lo (dec16 p) = BitVec.ofNat 8 (p.toNat + 65535) := by
  apply BitVec.eq_of_toNat_eq
  simp only [lo_toNat, dec16_toNat, BitVec.toNat_ofNat]
  omega

theorem hi_dec16 (p : Word) : hi (dec16 p) = BitVec.ofNat 8 ((p.toNat + 65535) % 65536 / 256) := by
  rw [hi_eq, dec16_toNat]

/-- Settles O18, from where the call leaves PC, the return word, SP and the counter. -/
theorem jsrCompletes : Obligations.JsrCompletes :=
  fun w s => ⟨_, exec_jsr w s, callSubroutine_pc w s,
    (byteAt_callSubroutine_low w s).trans (lo_dec16 s.pc), (byteAt_callSubroutine_high w s).trans (hi_dec16 s.pc),
    sp_callSubroutine_toNat w s, callSubroutine_cyc w s⟩

/-- Settles O21: the call's fields one by one, and memory apart from the word at the old SP. -/
theorem jsrFrame : Obligations.JsrFrame := by
  intro w s t h
  obtain rfl : callSubroutine w s = t := Host.Outcome.next.inj h
  refine ⟨callSubroutine_a w s, callSubroutine_x w s, callSubroutine_y w s, callSubroutine_c w s, callSubroutine_z w s,
    callSubroutine_i w s, callSubroutine_d w s, callSubroutine_b w s, callSubroutine_v w s, callSubroutine_n w s,
    callSubroutine_budget w s, callSubroutine_diag w s, callSubroutine_status w s, callSubroutine_cfg w s, ?_, ?_⟩
  · intro hwrap
    rw [callSubroutine_spHigh, advanceSp_spHigh_of_wrap hwrap]
  · rintro p rfl n hlow hhigh
    exact read_callSubroutine w s hlow hhigh

/-! ## The unknown opcode -/

/-- The unknown opcode after the fetch (R185). -/
theorem exec_unknown (op : Byte) (s : State) : exec (.unknown op) s = .next (report op s) := rfl

/-- Settles O19: the report is the record the statement writes out. -/
theorem unknownOpcodeCompletes : Obligations.UnknownOpcodeCompletes :=
  exec_unknown

/-- Settles O22: of the state a report writes `diag` only. -/
theorem unknownOpcodeFrame : Obligations.UnknownOpcodeFrame := by
  intro op s t h
  obtain rfl : report op s = t := Host.Outcome.next.inj h
  exact ⟨rfl, rfl, rfl, rfl, rfl, rfl, rfl, rfl, rfl, rfl, rfl, rfl, rfl, rfl, rfl, rfl, rfl, fun _ => rfl⟩

end Sys2Proof.Machine

/-! PROOFS. The other instructions as whole steps (R185, R203 to R207, R220), and the step before the first reset (R55). -/

namespace Sys2Proof.Machine

/-- Settles O23: the fetched state is the record the statement writes out. -/
theorem stepRunsDecodedInstruction : Obligations.StepRunsDecodedInstruction :=
  fun s hs => ⟨⟨_, fetchInstr_decode s⟩, fun _ _ hd => step_of_decode hs hd⟩

/-- Settles O25: each of the three looks at the status first. -/
theorem refusedBeforeReset : Obligations.RefusedBeforeReset := by
  intro s hs
  refine ⟨step_poweron hs, fun k => ?_, fun p => ?_⟩
  · rw [execute, hs]
  · rw [preload, hs]

/-- A step whose opcode byte decodes to LDA zero-page,X adds the index inside the zero page. -/
theorem step_of_lda_zpx {s : State} (hs : s.status = .idle)
    (h : decodeOpcode s.cfg (s.byteAt s.pc.toNat) = .lda .zpx) :
    step s = .next (s.afterLoad (s.byteAt (((s.byteAt (s.pc.toNat + 1)).toNat + s.x.toNat) % 256)) 2 4) :=
  calc step s
    _ = exec (.ldaZpX (lo (fetchOperand .opB (s.fetched 1)).1)) (s.fetched 2) := step_of_opcode hs h
    _ = _ := by rw [lo_fetchOperand_opB_fetched_one, exec_ldaZpX, fetched_afterLoad, byteAt_fetched, fetched_x]

theorem step_of_lda_zpy {s : State} (hs : s.status = .idle)
    (h : decodeOpcode s.cfg (s.byteAt s.pc.toNat) = .lda .zpy) :
    step s = .next (s.afterLoad (s.byteAt (((s.byteAt (s.pc.toNat + 1)).toNat + s.y.toNat) % 256)) 2 4) :=
  calc step s
    _ = exec (.ldaZpY (lo (fetchOperand .opB (s.fetched 1)).1)) (s.fetched 2) := step_of_opcode hs h
    _ = _ := by rw [lo_fetchOperand_opB_fetched_one, exec_ldaZpY, fetched_afterLoad, byteAt_fetched, fetched_y]

/-- Settles O28: under legal parameters each of the two bytes decodes to its own row. -/
theorem loadZeroPageIndexedStep : Obligations.LoadZeroPageIndexedStep := by
  intro s hs hwf
  refine ⟨fun hop => step_of_lda_zpx hs ?_, fun hop => step_of_lda_zpy hs (decodeOpcode_ldaZpY hwf hop)⟩
  rw [hop, decodeOpcode_ldaZpX hwf]

/-- The operand of a three-byte instruction is the word after the opcode, as a number. -/
theorem fetchOperand_opW_fetched_one_toNat (s : State) :
    (fetchOperand .opW (s.fetched 1)).1.toNat = s.wordAt (s.pc.toNat + 1) := by
  rw [fetchOperand, fetchWord_fetched_one, BitVec.toNat_ofNat, Nat.mod_eq_of_lt (wordAt_lt s _)]

theorem step_of_lda_abs {s : State} (hs : s.status = .idle)
    (h : decodeOpcode s.cfg (s.byteAt s.pc.toNat) = .lda .abs) :
    step s = .next (s.afterLoad (s.byteAt (s.wordAt (s.pc.toNat + 1))) 3 4) :=
  calc step s
    _ = exec (.ldaAbs (fetchOperand .opW (s.fetched 1)).1) (s.fetched 3) := step_of_opcode hs h
    _ = _ := by rw [exec_ldaAbs, fetched_afterLoad, byteAt_fetched, fetchOperand_opW_fetched_one_toNat]

/-- Settles O29: under legal parameters `OPC_LDA_ABS` decodes to its own row. -/
theorem loadAbsoluteStep : Obligations.LoadAbsoluteStep := by
  intro s hs hwf hop
  apply step_of_lda_abs hs
  rw [hop, decodeOpcode_ldaAbs hwf]

/-- The total of an indexed absolute load, with the page crossing told from the carry or from the page numbers (R145, R272). -/
theorem indexed_total {w r : Nat} (hw : w < 65536) (hr : r < 256) :
    3 + (if 256 ≤ w % 256 + r then 2 else 1) = if w / 256 = (w + r) % 65536 / 256 then 4 else 5 := by
  rw [if_congr (same_page_iff hw hr) rfl rfl, ite_not]
  split <;> rfl

theorem step_of_lda_absx {s : State} (hs : s.status = .idle)
    (h : decodeOpcode s.cfg (s.byteAt s.pc.toNat) = .lda .absx) :
    step s = .next (s.afterLoad (s.byteAt (s.wordAt (s.pc.toNat + 1) + s.x.toNat)) 3
      (if s.wordAt (s.pc.toNat + 1) / 256 = (s.wordAt (s.pc.toNat + 1) + s.x.toNat) % 65536 / 256 then 4 else 5)) :=
  calc step s
    _ = exec (.ldaAbsX (fetchOperand .opW (s.fetched 1)).1) (s.fetched 3) := step_of_opcode hs h
    _ = _ := by rw [exec_ldaAbsX, fetched_afterLoad, byteAt_fetched, fetched_x, fetchOperand_opW_fetched_one_toNat,
      indexed_total (wordAt_lt s _) s.x.isLt]

theorem step_of_lda_absy {s : State} (hs : s.status = .idle)
    (h : decodeOpcode s.cfg (s.byteAt s.pc.toNat) = .lda .absy) :
    step s = .next (s.afterLoad (s.byteAt (s.wordAt (s.pc.toNat + 1) + s.y.toNat)) 3
      (if s.wordAt (s.pc.toNat + 1) / 256 = (s.wordAt (s.pc.toNat + 1) + s.y.toNat) % 65536 / 256 then 4 else 5)) :=
  calc step s
    _ = exec (.ldaAbsY (fetchOperand .opW (s.fetched 1)).1) (s.fetched 3) := step_of_opcode hs h
    _ = _ := by rw [exec_ldaAbsY, fetched_afterLoad, byteAt_fetched, fetched_y, fetchOperand_opW_fetched_one_toNat,
      indexed_total (wordAt_lt s _) s.y.isLt]

/-- Settles O30: 0xBD is fixed by the spec, and under legal parameters it and `OPC_LDA_ABSY` decode to their own rows. -/
theorem loadAbsoluteIndexedStep : Obligations.LoadAbsoluteIndexedStep := by
  intro s hs hwf
  refine ⟨fun hop => step_of_lda_absx hs ?_, fun hop => step_of_lda_absy hs ?_⟩
  · rw [hop]
    exact decodeOpcode_ldaAbsX hwf
  · rw [hop, decodeOpcode_ldaAbsY hwf]

/-- A step whose opcode byte decodes to JSR calls the word after it. -/
theorem step_of_jsr {s : State} (hs : s.status = .idle) (h : decodeOpcode s.cfg (s.byteAt s.pc.toNat) = .jsr) :
    step s = .next (callSubroutine (BitVec.ofNat 16 (s.wordAt (s.pc.toNat + 1))) (s.fetched 3)) :=
  calc step s
    _ = exec (.jsr (fetchOperand .opW (s.fetched 1)).1) (s.fetched 3) := step_of_opcode hs h
    _ = _ := by rw [exec_jsr, fetchOperand, fetchWord_fetched_one]

/-- The word pushed by a JSR at P is P + 2: the fetch has moved PC three bytes on (R220). -/
theorem dec16_fetched_three_pc (s : State) : dec16 (s.fetched 3).pc = BitVec.ofNat 16 (s.pc.toNat + 2) := by
  apply BitVec.eq_of_toNat_eq
  simp only [dec16_toNat, fetched_pc, BitVec.toNat_ofNat]
  omega

theorem lo_ofNat (n : Nat) : lo (BitVec.ofNat 16 n) = BitVec.ofNat 8 n := by
  apply BitVec.eq_of_toNat_eq
  simp only [lo_toNat, BitVec.toNat_ofNat]
  omega

theorem hi_ofNat (n : Nat) : hi (BitVec.ofNat 16 n) = BitVec.ofNat 8 (n % 65536 / 256) := by
  rw [hi_eq, BitVec.toNat_ofNat]

/-- Settles O32: the call's result and frame, on the state whose PC is three bytes past the start. -/
theorem jumpToSubroutineStep : Obligations.JumpToSubroutineStep := by
  intro s hs hwf hop
  have hd : decodeOpcode s.cfg (s.byteAt s.pc.toNat) = .jsr := by rw [hop, decodeOpcode_jsr hwf]
  refine ⟨_, step_of_jsr hs hd, callSubroutine_pc _ _, ?_, ?_, fun n hlow hhigh => read_callSubroutine _ _ hlow hhigh,
    sp_callSubroutine_toNat _ _, callSubroutine_fetched_cyc _ s, ?_⟩
  · exact (byteAt_callSubroutine_low _ (s.fetched 3)).trans (by rw [dec16_fetched_three_pc, lo_ofNat])
  · exact (byteAt_callSubroutine_high _ (s.fetched 3)).trans (by rw [dec16_fetched_three_pc, hi_ofNat])
  · rw [callSubroutine_eq]
    exact ⟨rfl, rfl, rfl, rfl, rfl, rfl, rfl, rfl, rfl, rfl, rfl, rfl, rfl, rfl⟩

/-- A step whose opcode byte decodes to unknown reports that byte. -/
theorem step_of_unknown {s : State} (hs : s.status = .idle)
    (h : decodeOpcode s.cfg (s.byteAt s.pc.toNat) = .unknown) :
    step s = .next (report (s.byteAt s.pc.toNat) (s.fetched 1)) :=
  step_of_opcode hs h

/-- Settles O33: an unassigned byte decodes to unknown, and the reported state is the record the statement writes out. -/
theorem unknownOpcodeStep : Obligations.UnknownOpcodeStep :=
  fun s hs hop => step_of_unknown hs ((decodeOpcode_eq_unknown_iff s.cfg _).2 hop)

end Sys2Proof.Machine

/-! PROOFS. What every step keeps: the fields it never writes, the invariant, and its blindness to A, the flags and the counter
(R31, R32, R33, R39, R41, R53, R240). -/

namespace Sys2Proof.Machine

/-! ## The fields no step writes -/

/-- The fields no step writes, together: X, Y, C, I, D, V, B, the budget, the status and the parameters. -/
def State.unwritten (s : State) : Byte × Byte × Bool × Bool × Bool × Bool × Bool × Int × Status × Config :=
  (s.x, s.y, s.c, s.i, s.d, s.v, s.b, s.budget, s.status, s.cfg)

theorem unwritten_eq_iff {s t : State} : t.unwritten = s.unwritten ↔
    t.x = s.x ∧ t.y = s.y ∧ t.c = s.c ∧ t.i = s.i ∧ t.d = s.d ∧ t.v = s.v ∧ t.b = s.b ∧
      t.budget = s.budget ∧ t.status = s.status ∧ t.cfg = s.cfg := by
  simp only [State.unwritten, Prod.mk.injEq]

/-- A step writes none of them, whether it loads, calls or reports. -/
theorem step_unwritten {s t : State} (h : step s = .next t) : t.unwritten = s.unwritten := by
  obtain ⟨-, ⟨m, v, k, -, -, rfl⟩ | ⟨w, -, rfl⟩ | ⟨op, -, rfl⟩⟩ := step_cases h
  · rfl
  · simp only [State.unwritten, callSubroutine_x, callSubroutine_y, callSubroutine_c, callSubroutine_i, callSubroutine_d,
      callSubroutine_v, callSubroutine_b, callSubroutine_budget, callSubroutine_status, callSubroutine_cfg]
    rfl
  · rfl

/-- Settles O36, field by field. -/
theorem stepNeverWrites : Obligations.StepNeverWrites :=
  fun _ _ h => unwritten_eq_iff.1 (step_unwritten h)

theorem step_cfg {s t : State} (h : step s = .next t) : t.cfg = s.cfg := by
  obtain ⟨-, -, -, -, -, -, -, -, -, hcfg⟩ := stepNeverWrites s t h
  exact hcfg

/-- Whatever an `execute` answers, it has only loaded the budget into these fields. -/
theorem execute_unwritten {s t : State} {k : Int} (h : execute k s = .next t) :
    t.unwritten = (beginExecute k s).unwritten :=
  execute_invariant (P := fun u => u.unwritten = (beginExecute k s).unwritten)
    (fun _ _ hu _ hst => (step_unwritten hst).trans hu) rfl h

/-- Settles O51: the start of a call writes none of these fields either, apart from the budget. -/
theorem executeNeverWrites : Obligations.ExecuteNeverWrites := by
  intro s t k h
  obtain ⟨hx, hy, hc, hi, hd, hv, hb, -, hstatus, hcfg⟩ := unwritten_eq_iff.1 (execute_unwritten h)
  exact ⟨hx, hy, hc, hi, hd, hv, hb, hstatus, hcfg⟩

theorem execute_budget {s t : State} {k : Int} (h : execute k s = .next t) : t.budget = k := by
  obtain ⟨-, -, -, -, -, -, -, hbudget, -, -⟩ := unwritten_eq_iff.1 (execute_unwritten h)
  exact hbudget

/-! ## The invariant -/

/-- The invariant looks at the parameters, memory and SP's high byte only. -/
theorem inv_congr {s t : State} (hcfg : t.cfg = s.cfg) (hmem : t.mem = s.mem) (hsp : t.spHigh = s.spHigh)
    (h : s.Inv) : t.Inv := by
  obtain ⟨hwf, hcanon, hhigh⟩ := h
  exact ⟨by rwa [hcfg], by rwa [hmem], by rwa [hcfg, hsp]⟩

/-- A call keeps the invariant: its two byte writes keep memory canonical, and under the wrap SP's high byte is not written. -/
theorem callSubroutine_inv (w : Word) {s : State} (h : s.Inv) : (callSubroutine w s).Inv := by
  obtain ⟨hwf, hcanon, hhigh⟩ := h
  refine ⟨?_, ?_, ?_⟩
  · rwa [callSubroutine_cfg]
  · rw [callSubroutine_mem]
    exact writeWord_wf _ _ hcanon
  · intro hwrap
    rw [callSubroutine_cfg] at hwrap
    rw [callSubroutine_spHigh, advanceSp_spHigh_of_wrap hwrap, hhigh hwrap]

theorem fetched_inv (len : Nat) {s : State} (h : s.Inv) : (s.fetched len).Inv :=
  inv_congr rfl rfl rfl h

/-- Settles O40: a load and a report leave all the invariant looks at alone, and a call keeps it. -/
theorem stepKeepsInvariant : Obligations.StepKeepsInvariant := by
  intro s t hs h
  obtain ⟨-, ⟨m, v, k, -, -, rfl⟩ | ⟨w, -, rfl⟩ | ⟨op, -, rfl⟩⟩ := step_cases h
  · exact inv_congr rfl rfl rfl hs
  · exact callSubroutine_inv w (fetched_inv 3 hs)
  · exact inv_congr rfl rfl rfl hs

theorem resetWith_inv {cfg : Config} (h : cfg.wf = true) : (State.resetWith cfg).Inv :=
  ⟨h, rfl, fun _ => rfl⟩

/-- Settles O39: memory is empty and SP's high byte is written after reset, and the defaults are legal. -/
theorem resetSatisfiesInvariant : Obligations.ResetSatisfiesInvariant :=
  ⟨fun _ => resetWith_inv, resetWith_inv (by decide)⟩

theorem hostReset_inv {s : State} (h : s.Inv) : (hostReset s).Inv := by
  obtain ⟨hwf, hcanon, -⟩ := h
  refine ⟨hwf, ?_, fun _ => rfl⟩
  rw [hostReset]
  split
  · rfl
  · exact hcanon

theorem initialise_inv {s : State} (h : s.Inv) : (initialise s).Inv := by
  obtain ⟨hwf, -, hhigh⟩ := h
  exact ⟨hwf, rfl, hhigh⟩

theorem memWrite_inv (p : Word) (v : Byte) {s : State} (h : s.Inv) : (memWrite p v s).Inv := by
  obtain ⟨hwf, hcanon, hhigh⟩ := h
  exact ⟨hwf, memWrite_wf p v hcanon, hhigh⟩

/-- A program load is a byte write after another. -/
theorem loadBytes_inv (p : Word) (bs : List Byte) {s : State} (h : s.Inv) : (loadBytes p bs s).Inv := by
  induction bs generalizing p s with
  | nil => exact h
  | cons v rest ih => exact ih (inc16 p) (memWrite_inv p v h)

theorem setSp_inv (w : Word) {s : State} (h : s.Inv) : (s.setSp w).Inv := by
  obtain ⟨hwf, hcanon, hhigh⟩ := h
  refine ⟨by rwa [setSp_cfg], by rwa [setSp_mem], fun hwrap => ?_⟩
  rw [setSp_cfg] at hwrap
  rw [setSp_spHigh_of_wrap w hwrap, hhigh hwrap]

/-- A preload keeps the invariant: that of SP by the write to SP, any other by writing nothing the invariant looks at. -/
theorem preload_apply_inv (p : Preload) {s : State} (h : s.Inv) : (p.apply s).Inv := by
  cases p with
  | sp w => exact setSp_inv w h
  | pc | a | x | y | c | z | i | d | b | v | n => exact inv_congr rfl rfl rfl h

theorem preload_idle {s : State} (hs : s.status = .idle) (p : Preload) : preload p s = .next (p.apply s) := by
  rw [preload, hs]

theorem eq_apply_of_preload {p : Preload} {s t : State} (h : preload p s = .next t) : t = p.apply s := by
  cases hs : s.status with
  | idle =>
    rw [preload_idle hs] at h
    exact (Host.Outcome.next.inj h).symm
  | poweron =>
    rw [preload, hs] at h
    cases h

theorem execute_inv {k : Int} {s t : State} (hs : s.Inv) (h : execute k s = .next t) : t.Inv :=
  execute_invariant (fun u v hu _ hst => stepKeepsInvariant u v hu hst) (inv_congr rfl rfl rfl hs) h

/-- Settles O41, move by move. -/
theorem hostMovesKeepInvariant : Obligations.HostMovesKeepInvariant := by
  intro s hs
  refine ⟨hostReset_inv hs, initialise_inv hs, fun p v => memWrite_inv p v hs, fun p bs => loadBytes_inv p bs hs,
    fun p t h => ?_, fun k t h => execute_inv hs h⟩
  rw [eq_apply_of_preload h]
  exact preload_apply_inv p hs

/-! ## Noninterference -/

/-- Erasing A, the flags and the counter does not change which instruction is fetched. -/
theorem fetchInstr_withoutResults (s : State) : (fetchInstr s.withoutResults).1 = (fetchInstr s).1 := by
  obtain ⟨rest, hd⟩ := fetchInstr_decode s
  exact (eq_fetchInstr_of_decode (s := s.withoutResults) hd).symm

/-- A load takes the same byte at the same cost in two states with the same X, Y and memory. -/
theorem exec_load_congr {i : Instr} {m : Mode} (h : i.opcode = .lda m) {s s' : State} (hx : s.x = s'.x) (hy : s.y = s'.y)
    (hmem : s.mem = s'.mem) :
    ∃ v k, exec i s = .next (s.afterLoad v 0 k) ∧ exec i s' = .next (s'.afterLoad v 0 k) := by
  have hbyte := byteAt_congr hmem
  cases i with
  | ldaImm b => exact ⟨_, _, exec_ldaImm b s, exec_ldaImm b s'⟩
  | ldaZp z => exact ⟨_, _, by rw [exec_ldaZp, hbyte], exec_ldaZp z s'⟩
  | ldaZpX z => exact ⟨_, _, by rw [exec_ldaZpX, hbyte, hx], exec_ldaZpX z s'⟩
  | ldaZpY z => exact ⟨_, _, by rw [exec_ldaZpY, hbyte, hy], exec_ldaZpY z s'⟩
  | ldaAbs w => exact ⟨_, _, by rw [exec_ldaAbs, hbyte], exec_ldaAbs w s'⟩
  | ldaAbsX w => exact ⟨_, _, by rw [exec_ldaAbsX, hbyte, hx], exec_ldaAbsX w s'⟩
  | ldaAbsY w => exact ⟨_, _, by rw [exec_ldaAbsY, hbyte, hy], exec_ldaAbsY w s'⟩
  | jsr w => cases h
  | unknown op => cases h

/-- A call on an erased state, erased, is the erased call: the stack word, PC and SP come from fields that stay. -/
theorem callSubroutine_withoutResults (w : Word) (s : State) :
    (callSubroutine w s.withoutResults).withoutResults = (callSubroutine w s).withoutResults := by
  obtain ⟨hlow, hhigh⟩ := advanceSp_congr (s := s) (t := s.withoutResults) rfl rfl rfl
  rw [callSubroutine_eq, callSubroutine_eq, hlow, hhigh]
  rfl

/-- PC past an instruction is a field that stays, and the cycles of its bytes are erased. -/
theorem fetched_withoutResults_congr (len : Nat) {s s' : State} (h : s.withoutResults = s'.withoutResults) :
    (s.fetched len).withoutResults = (s'.fetched len).withoutResults :=
  congrArg (fun u => (u.fetched len).withoutResults) h

/-- The simulation, for one meaning: states that are equal once erased run it to states that are equal once erased, at one cost. -/
theorem exec_sim (i : Instr) {s s' : State} (h : s.withoutResults = s'.withoutResults) :
    ∃ t t', exec i s = .next t ∧ exec i s' = .next t' ∧
      t.withoutResults = t'.withoutResults ∧ s.cyc - t.cyc = s'.cyc - t'.cyc := by
  rcases exec_cases i s with ⟨m, -, -, hi, -, -⟩ | ⟨w, rfl, -⟩ | ⟨op, rfl, -⟩
  · have hx : s.x = s'.x := (congrArg State.x h :)
    have hy : s.y = s'.y := (congrArg State.y h :)
    have hmem : s.mem = s'.mem := (congrArg State.mem h :)
    obtain ⟨v, k, he, he'⟩ := exec_load_congr hi hx hy hmem
    refine ⟨_, _, he, he', fetched_withoutResults_congr 0 h, ?_⟩
    rw [afterLoad_cyc, afterLoad_cyc]
    omega
  · refine ⟨_, _, exec_jsr w s, exec_jsr w s', ?_, ?_⟩
    · rw [← callSubroutine_withoutResults w s, h, callSubroutine_withoutResults]
    · rw [callSubroutine_cyc, callSubroutine_cyc]
      omega
  · refine ⟨_, _, exec_unknown op s, exec_unknown op s', congrArg (report op) h, ?_⟩
    rw [report_cyc, report_cyc, Int.sub_self, Int.sub_self]

/-- Settles O38: the two states fetch the same instruction, whose meaning keeps them equal once erased. -/
theorem accumulatorFlagsAndCounterAreNeverRead : Obligations.AccumulatorFlagsAndCounterAreNeverRead := by
  intro s s' h t hst
  obtain ⟨hs, -⟩ := step_cases hst
  have hs' : s'.status = .idle := (congrArg State.status h).symm.trans hs
  have hfetch : (fetchInstr s).1 = (fetchInstr s').1 := by
    rw [← fetchInstr_withoutResults s, h, fetchInstr_withoutResults]
  obtain ⟨u, u', he, he', hsim, hcost⟩ :=
    exec_sim (fetchInstr s).1 (fetched_withoutResults_congr (fetchInstr s).1.length h)
  rw [step_idle hs, he] at hst
  cases hst
  refine ⟨u', ?_, hsim, ?_⟩
  · rw [step_idle hs', ← hfetch, he']
  · rw [fetched_cyc, fetched_cyc] at hcost
    omega

end Sys2Proof.Machine

/-! PROOFS. What a step costs, reports and does to SP, by the instruction it fetches (R39, R186, R272). -/

namespace Sys2Proof.Machine

/-! ## The cycle table -/

/-- A load pays for its bytes and then for its meaning. -/
theorem fetched_afterLoad_cyc (s : State) (v : Byte) (len k : Nat) :
    ((s.fetched len).afterLoad v 0 k).cyc = s.cyc - ((len + k : Nat) : Int) := by
  rw [fetched_afterLoad, afterLoad_cyc]

/-- The total of R272, form by form: the bytes of the instruction and what its meaning charges. -/
theorem exec_fetched_cyc (i : Instr) (s : State) :
    ∃ t, exec i (s.fetched i.length) = .next t ∧ t.cyc = s.cyc - (cycleCost i s : Int) := by
  cases i with
  | ldaImm b => exact ⟨_, exec_ldaImm b _, fetched_afterLoad_cyc s _ 2 0⟩
  | ldaZp z => exact ⟨_, exec_ldaZp z _, fetched_afterLoad_cyc s _ 2 1⟩
  | ldaZpX z => exact ⟨_, exec_ldaZpX z _, fetched_afterLoad_cyc s _ 2 2⟩
  | ldaZpY z => exact ⟨_, exec_ldaZpY z _, fetched_afterLoad_cyc s _ 2 2⟩
  | ldaAbs w => exact ⟨_, exec_ldaAbs w _, fetched_afterLoad_cyc s _ 3 1⟩
  | ldaAbsX w =>
    refine ⟨_, exec_ldaAbsX w _, (fetched_afterLoad_cyc s _ 3 _).trans ?_⟩
    rw [fetched_x, cycleCost]
    split <;> rfl
  | ldaAbsY w =>
    refine ⟨_, exec_ldaAbsY w _, (fetched_afterLoad_cyc s _ 3 _).trans ?_⟩
    rw [fetched_y, cycleCost]
    split <;> rfl
  | jsr w => exact ⟨_, exec_jsr w _, callSubroutine_fetched_cyc w s⟩
  | unknown op => exact ⟨_, exec_unknown op _, rfl⟩

theorem step_cyc {s t : State} (h : step s = .next t) : t.cyc = s.cyc - (cycleCost (fetchInstr s).1 s : Int) := by
  obtain ⟨hs, -⟩ := step_cases h
  obtain ⟨u, he, hcyc⟩ := exec_fetched_cyc (fetchInstr s).1 s
  rw [step_idle hs, he] at h
  cases h
  exact hcyc

/-- Settles O35: the decoded instruction is the one fetched. -/
theorem cycleTable : Obligations.CycleTable := by
  intro s i rest hs hd
  obtain ⟨t, he, hcyc⟩ := exec_fetched_cyc i s
  exact ⟨t, (step_of_decode hs hd).trans he, hcyc⟩

/-! ## Reports -/

/-- The unknown opcodes are the instructions that report. -/
theorem reportedByte_isSome (i : Instr) : (reportedByte i).isSome = decide (i.opcode = .unknown) := by
  cases i <;> rfl

theorem reportedByte_of_load {i : Instr} {m : Mode} (h : i.opcode = .lda m) : reportedByte i = none := by
  refine Option.not_isSome_iff_eq_none.1 fun hsome => ?_
  rw [reportedByte_isSome, h] at hsome
  cases of_decide_eq_true hsome

theorem step_diag {s t : State} (h : step s = .next t) :
    t.diag = s.diag ++ (reportedByte (fetchInstr s).1).toList := by
  obtain ⟨-, ⟨m, v, k, ho, -, rfl⟩ | ⟨w, hi, rfl⟩ | ⟨op, hi, rfl⟩⟩ := step_cases h
  · rw [reportedByte_of_load ho]
    exact (List.append_nil _).symm
  · rw [callSubroutine_diag, hi]
    exact (List.append_nil _).symm
  · rw [hi]
    rfl

/-! ## SP and memory -/

/-- A step that fetches a JSR is a call. -/
theorem step_eq_call {s t : State} (h : step s = .next t) (hj : (fetchInstr s).1.opcode = .jsr) :
    ∃ w, t = callSubroutine w (s.fetched 3) := by
  obtain ⟨-, ⟨m, v, k, ho, -, -⟩ | ⟨w, -, ht⟩ | ⟨op, hi, -⟩⟩ := step_cases h
  · rw [ho] at hj
    cases hj
  · exact ⟨w, ht⟩
  · rw [hi] at hj
    cases hj

/-- A step that fetches no JSR leaves SP and memory alone. -/
theorem step_keeps_stack {s t : State} (h : step s = .next t) (hj : (fetchInstr s).1.opcode ≠ .jsr) :
    t.sLow = s.sLow ∧ t.spHigh = s.spHigh ∧ t.mem = s.mem := by
  obtain ⟨-, ⟨m, v, k, -, -, rfl⟩ | ⟨w, hi, -⟩ | ⟨op, -, rfl⟩⟩ := step_cases h
  · exact ⟨rfl, rfl, rfl⟩
  · rw [hi] at hj
    exact absurd rfl hj
  · exact ⟨rfl, rfl, rfl⟩

theorem callSubroutine_sLow_toNat_of_wrap (w : Word) {s : State} (h : s.cfg.spPageWrap = true) :
    (callSubroutine w s).sLow.toNat = (s.sLow.toNat + 2) % 256 := by
  rw [callSubroutine_sLow, advanceSp_sLow_of_wrap h, spadvance_toNat]

/-- Settles O37, by whether the byte at PC decodes to JSR. -/
theorem stackPointerMovesOnlyByCalls : Obligations.StackPointerMovesOnlyByCalls := by
  intro s t hwrap h
  rw [← fetchInstr_opcode]
  by_cases hj : (fetchInstr s).1.opcode = .jsr
  · obtain ⟨w, rfl⟩ := step_eq_call h hj
    refine ⟨?_, fun _ => callSubroutine_sLow_toNat_of_wrap w hwrap, fun hne => absurd hj hne⟩
    rw [callSubroutine_spHigh, advanceSp_spHigh_of_wrap (s := s.fetched 3) hwrap, fetched_spHigh]
  · obtain ⟨hlow, hhigh, -⟩ := step_keeps_stack h hj
    exact ⟨hhigh, fun hj' => absurd hj' hj, fun _ => hlow⟩

/-- The stored byte under the wrap, with the step's calls counted. -/
theorem step_sLow_toNat {s t : State} (hwrap : s.cfg.spPageWrap = true) (h : step s = .next t) :
    t.sLow.toNat = (s.sLow.toNat + 2 * if (fetchInstr s).1.opcode = .jsr then 1 else 0) % 256 := by
  obtain ⟨-, hcall, hother⟩ := stackPointerMovesOnlyByCalls s t hwrap h
  rw [← fetchInstr_opcode] at hcall hother
  split
  next hj => exact hcall hj
  next hj =>
    rw [hother hj]
    exact (Nat.mod_eq_of_lt s.sLow.isLt).symm

/-- SP without the wrap, with the step's calls counted. -/
theorem step_sp_toNat {s t : State} (hwrap : s.cfg.spPageWrap = false) (h : step s = .next t) :
    t.sp.toNat = (s.sp.toNat + 2 * if (fetchInstr s).1.opcode = .jsr then 1 else 0) % 65536 := by
  split
  next hj =>
    obtain ⟨w, rfl⟩ := step_eq_call h hj
    rw [sp_callSubroutine_toNat, fetched_cfg, hwrap]
    rfl
  next hj =>
    obtain ⟨hlow, hhigh, -⟩ := step_keeps_stack h hj
    rw [sp_congr hlow hhigh (step_cfg h)]
    exact (Nat.mod_eq_of_lt s.sp.isLt).symm

end Sys2Proof.Machine

/-! PROOFS. `execute` as the list of the instructions it runs (R180, R183, R187), and what that list accounts for. -/

namespace Sys2Proof.Machine

/-- The loop of R180 as a relation: from `s` it runs the instructions of `run`, each listed with the state it starts in, and stops in
`t`, the first state at an instruction boundary with no cycle left. -/
inductive Execution : State → List (Instr × State) → State → Prop where
  | done {s : State} (hcyc : s.cyc ≤ 0) : Execution s [] s
  | more {s u t : State} {run : List (Instr × State)} (hcyc : 0 < s.cyc) (hst : step s = .next u)
      (rest : Execution u run t) : Execution s (((fetchInstr s).1, s) :: run) t

theorem step_cyc_bounds {s t : State} (h : step s = .next t) : s.cyc - 6 ≤ t.cyc ∧ t.cyc ≤ s.cyc - 1 := by
  obtain ⟨hs, -⟩ := step_cases h
  obtain ⟨u, hu, -, hmin, hmax⟩ := step_cost hs
  rw [hu] at h
  cases h
  exact ⟨hmin, hmax⟩

/-- With fuel for every cycle left the loop is an execution: each step pays at least one cycle (R187). -/
theorem runLoop_execution {fuel : Nat} {s : State} (hs : s.status = .idle) (hfuel : s.cyc ≤ fuel) :
    ∃ run t, runLoop fuel s = .next t ∧ Execution s run t := by
  induction fuel generalizing s with
  | zero => exact ⟨[], s, rfl, .done hfuel⟩
  | succ fuel ih =>
    by_cases hcyc : 0 < s.cyc
    · obtain ⟨u, hst, hu, -, hpaid⟩ := step_cost hs
      obtain ⟨run, t, hloop, hrun⟩ := ih hu (by omega)
      exact ⟨_, t, (runLoop_step hcyc hst).trans hloop, .more hcyc hst hrun⟩
    · exact ⟨[], s, runLoop_done _ (by omega), .done (by omega)⟩

/-- Every call of an idle machine ends, and is an execution from its start. -/
theorem execute_execution {s : State} (hs : s.status = .idle) (k : Int) :
    ∃ run t, execute k s = .next t ∧ Execution (beginExecute k s) run t := by
  rw [execute_idle hs]
  exact runLoop_execution hs (Int.self_le_toNat k)

theorem execution_of_execute {s t : State} {k : Int} (h : execute k s = .next t) :
    ∃ run, Execution (beginExecute k s) run t := by
  obtain ⟨run, u, hu, hrun⟩ := execute_execution (status_of_execute h) k
  rw [hu] at h
  cases h
  exact ⟨run, hrun⟩

section
variable {s t : State} {run : List (Instr × State)}

theorem Execution.cyc_nonpos (h : Execution s run t) : t.cyc ≤ 0 := by
  induction h with
  | done hcyc => exact hcyc
  | more _ _ _ ih => exact ih

/-- The whole list takes the host's run from the start to the end. -/
theorem Execution.run_length (h : Execution s run t) : Sys2Proof.core.run run.length s = .next t := by
  induction h with
  | done => rfl
  | more _ hst _ ih => rw [List.length_cons, core_run_succ hst, ih]

/-- Every entry is the instruction fetched in the state the host's run has then reached, with cycles left. -/
theorem Execution.run_getElem (h : Execution s run t) : ∀ j (hj : j < run.length),
    Sys2Proof.core.run j s = .next run[j].2 ∧ 0 < run[j].2.cyc ∧ run[j].1 = (fetchInstr run[j].2).1 := by
  induction h with
  | done => exact fun _ hj => absurd hj (Nat.not_lt_zero _)
  | more hcyc hst _ ih =>
    intro j hj
    cases j with
    | zero => exact ⟨rfl, hcyc, rfl⟩
    | succ j =>
      rw [core_run_succ hst]
      exact ih j (Nat.lt_of_succ_lt_succ hj)

/-- Every instruction pays at least one cycle, so there are no more of them than cycles. -/
theorem Execution.length_le (h : Execution s run t) : (run.length : Int) ≤ max s.cyc 0 := by
  induction h with
  | done => exact le_max_right _ _
  | more hcyc hst _ ih =>
    obtain ⟨-, hpaid⟩ := step_cyc_bounds hst
    rw [List.length_cons]
    omega

theorem Execution.length_pos (h : Execution s run t) (hcyc : 0 < s.cyc) : 1 ≤ run.length := by
  cases h with
  | done hdone => omega
  | more => exact Nat.succ_pos _

/-- The last instruction starts with a cycle left and costs at most 6 (R49). -/
theorem Execution.neg_five_le_cyc (h : Execution s run t) (hcyc : -5 ≤ s.cyc) : -5 ≤ t.cyc := by
  induction h with
  | done => exact hcyc
  | more hpos hst _ ih =>
    obtain ⟨hmin, -⟩ := step_cyc_bounds hst
    exact ih (by omega)

/-- The cycles between start and end are the costs of the instructions run. -/
theorem Execution.cyc_sub (h : Execution s run t) :
    s.cyc - t.cyc = ((run.map fun e => cycleCost e.1 e.2).sum : Nat) := by
  induction h with
  | done => exact Int.sub_self _
  | more _ hst _ ih =>
    have hpaid := step_cyc hst
    simp only [List.map_cons, List.sum_cons, Nat.cast_add]
    omega

/-- `diag` grows by the reported bytes, in the order of the run. -/
theorem Execution.diag_eq (h : Execution s run t) :
    t.diag = s.diag ++ run.filterMap fun e => reportedByte e.1 := by
  induction h with
  | done => exact (List.append_nil _).symm
  | @more s _ _ _ _ hst _ ih =>
    rw [ih, step_diag hst, List.filterMap_cons, List.append_assoc]
    cases reportedByte (fetchInstr s).1 <;> rfl

/-- A number that each call moves by 2 modulo `M`, and no other step moves, has moved by 2 for each JSR of the run. `P` is what of the
parameters the number depends on. -/
theorem Execution.moved_by_calls {P : Config → Prop} {f : State → Nat} {M : Nat} (hlt : ∀ u, f u < M)
    (hstep : ∀ u v, P u.cfg → step u = .next v →
      f v = (f u + 2 * if (fetchInstr u).1.opcode = .jsr then 1 else 0) % M)
    (h : Execution s run t) (hP : P s.cfg) : f t = (f s + 2 * run.countP fun e => e.1.opcode = .jsr) % M := by
  induction h with
  | done => exact (Nat.mod_eq_of_lt (hlt _)).symm
  | more _ hst _ ih =>
    rw [ih (by rwa [step_cfg hst]), hstep _ _ hP hst, List.countP_cons, Nat.mod_add_mod]
    simp only [decide_eq_true_eq]
    congr 1
    omega

end

/-- Settles O47: the loop is an execution, whose list is as long as the number of steps. -/
theorem executeRunsStepsWhileBudgetRemains : Obligations.ExecuteRunsStepsWhileBudgetRemains := by
  intro s k hs
  obtain ⟨run, t, hexec, hrun⟩ := execute_execution hs k
  refine ⟨run.length, t, hexec, hrun.run_length, hrun.cyc_nonpos, ?_, hrun.length_le, hrun.length_pos, fun j hj => ?_⟩
  · rw [State.cyclesConsumed, execute_budget hexec]
  · obtain ⟨hreach, hcyc, -⟩ := hrun.run_getElem j hj
    exact ⟨_, hreach, hcyc⟩

/-- Settles O48: the counter ends between -5 and 0, and the result is the budget less it. -/
theorem overshootIsAtMostFive : Obligations.OvershootIsAtMostFive := by
  intro s k hs hk
  obtain ⟨run, t, hexec, hrun⟩ := execute_execution hs k
  have hbudget : t.budget = k := execute_budget hexec
  have hconsumed : t.cyclesConsumed = k - t.cyc := by rw [State.cyclesConsumed, hbudget]
  have hmax : t.cyc ≤ 0 := hrun.cyc_nonpos
  have hstart : (beginExecute k s).cyc = k := beginExecute_cyc s k
  have hmin : -5 ≤ t.cyc := hrun.neg_five_le_cyc (by omega)
  exact ⟨t, hexec, hbudget, hconsumed, by omega, by omega, hmin, hmax⟩

/-- Each report is one byte, so there are as many as unknown opcodes run. -/
theorem length_filterMap_reportedByte (run : List (Instr × State)) :
    (run.filterMap fun e => reportedByte e.1).length = run.countP fun e => e.1.opcode = .unknown := by
  simp only [List.length_filterMap_eq_countP, reportedByte_isSome]

/-- Settles O53, from the accounts of the execution: its states, its costs, its reports and its calls. -/
theorem executeCountsCallsAndReports : Obligations.ExecuteCountsCallsAndReports := by
  intro s t k h
  obtain ⟨run, hrun⟩ := execution_of_execute h
  have hdiag : t.diag = run.filterMap fun e => reportedByte e.1 := hrun.diag_eq
  refine ⟨run, hrun.run_length, fun j hj => ?_, ?_, hdiag, ?_, fun hwrap => ?_, fun hwrap => ?_⟩
  · obtain ⟨hreach, -, hinstr⟩ := hrun.run_getElem j hj
    exact ⟨hreach, by rw [hinstr]; exact fetchInstr_decode _⟩
  · rw [State.cyclesConsumed, execute_budget h]
    exact hrun.cyc_sub
  · rw [hdiag, length_filterMap_reportedByte]
  · exact hrun.moved_by_calls (s := beginExecute k s) (f := fun u => u.sLow.toNat) (P := fun cfg => cfg.spPageWrap = true)
      (fun u => u.sLow.isLt) (fun _ _ => step_sLow_toNat) hwrap
  · exact hrun.moved_by_calls (s := beginExecute k s) (f := fun u => u.sp.toNat) (P := fun cfg => cfg.spPageWrap = false)
      (fun u => u.sp.isLt) (fun _ _ => step_sp_toNat) hwrap

/-- Settles O49: the first step pays the one cycle there is, and the loop's fuel is one. -/
theorem executeOneIsOneStep : Obligations.ExecuteOneIsOneStep := by
  intro s hs
  obtain ⟨t, hst, -⟩ := step_cost (s := beginExecute 1 s) hs
  calc execute 1 s
    _ = runLoop 1 (beginExecute 1 s) := execute_idle hs 1
    _ = runLoop 0 t := runLoop_step Int.zero_lt_one hst
    _ = step (beginExecute 1 s) := hst.symm

/-- Settles O50: the three fields are overwritten before the loop reads them. -/
theorem executeForgetsEarlierCalls : Obligations.ExecuteForgetsEarlierCalls :=
  fun _ _ _ _ _ => rfl

end Sys2Proof.Machine

/-! PROOFS. Where `execute` writes (R76, D5, D26). -/

namespace Sys2Proof.Machine

/-- From `s` to `t` no byte outside 0x0100 to 0x0200 changed, and 0x0200 only if the stored byte of SP is odd; its parity stays, so that
the claim carries over to the next step. -/
structure StackPageOnly (s t : State) : Prop where
  cfg : t.cfg = s.cfg
  parity : t.sLow.toNat % 2 = s.sLow.toNat % 2
  outside : ∀ n, n < 0x0100 ∨ 0x0200 < n → t.mem.read n = s.mem.read n
  next_page : s.sLow.toNat % 2 = 0 → t.mem.read 0x0200 = s.mem.read 0x0200

theorem StackPageOnly.trans {s t u : State} (hst : StackPageOnly s t) (htu : StackPageOnly t u) :
    StackPageOnly s u where
  cfg := htu.cfg.trans hst.cfg
  parity := htu.parity.trans hst.parity
  outside n hn := (htu.outside n hn).trans (hst.outside n hn)
  next_page heven := (htu.next_page (hst.parity.trans heven)).trans (hst.next_page heven)

/-- Under the wrap a call writes at 0x0100 + S and the address after it, which is 0x0200 for S = 0xFF only. -/
theorem callSubroutine_stackPageOnly (w : Word) {s : State} (hwrap : s.cfg.spPageWrap = true) :
    StackPageOnly s (callSubroutine w s) := by
  have hsp : s.sp.toNat = 256 + s.sLow.toNat := sp_of_wrap s hwrap
  have hlow : s.sLow.toNat < 256 := s.sLow.isLt
  refine ⟨callSubroutine_cfg w s, ?_, fun n hn => ?_, fun heven => ?_⟩
  · rw [callSubroutine_sLow_toNat_of_wrap w hwrap]
    omega
  · exact read_callSubroutine w s (by omega) (by omega)
  · exact read_callSubroutine w s (by omega) (by omega)

theorem step_stackPageOnly {s t : State} (hwrap : s.cfg.spPageWrap = true) (h : step s = .next t) :
    StackPageOnly s t := by
  by_cases hj : (fetchInstr s).1.opcode = .jsr
  · obtain ⟨w, rfl⟩ := step_eq_call h hj
    obtain ⟨hcfg, hparity, houtside, hnext⟩ := callSubroutine_stackPageOnly w (s := s.fetched 3) hwrap
    exact ⟨hcfg, hparity, houtside, hnext⟩
  · obtain ⟨hlow, -, hmem⟩ := step_keeps_stack h hj
    exact ⟨step_cfg h, by rw [hlow], fun _ _ => by rw [hmem], fun _ => by rw [hmem]⟩

/-- Settles O52: every step of the call keeps to the page, and the start of the call writes neither memory nor SP. -/
theorem executeWritesOnlyTheStackPage : Obligations.ExecuteWritesOnlyTheStackPage := by
  intro s t k hwrap h
  have hpage : StackPageOnly s t := execute_invariant
    (fun u v hu _ hst => hu.trans (step_stackPageOnly (by rwa [hu.cfg]) hst))
    ⟨rfl, rfl, fun _ _ => rfl, fun _ => rfl⟩ h
  exact ⟨hpage.outside, hpage.next_page⟩

end Sys2Proof.Machine

/-! PROOFS. Reset and preload (R52, R54, R260 to R262). -/

namespace Sys2Proof.Machine

/-- Where the OPEN parameter asks for it, memory is zero after reset (R261, D7). -/
theorem hostReset_mem_of_clears {s : State} (h : s.cfg.resetClearsMemory = true) : (hostReset s).mem = [] :=
  if_pos h

/-- Memory after a second reset is memory after the first, cleared or left alone. -/
theorem hostReset_hostReset_mem (s : State) : (hostReset (hostReset s)).mem = (hostReset s).mem := by
  cases h : s.cfg.resetClearsMemory with
  | true => rw [hostReset_mem_of_clears h, hostReset_mem_of_clears (s := hostReset s) h]
  | false => exact hostReset_mem_of_not_clears h

/-- Settles O43: a second reset writes the same values again. -/
theorem resetIsIdempotent : Obligations.ResetIsIdempotent := by
  refine fun s => ⟨?_, fun h n => ?_⟩
  · ext1
    case mem => exact hostReset_hostReset_mem s
    all_goals rfl
  · rw [State.byteAt, hostReset_mem_of_clears h]
    rfl

/-- Memory is empty at power-on, so a reset leaves it empty whether it clears it or not. -/
theorem hostReset_powerOn (cfg : Config) : hostReset (State.powerOn cfg) = State.resetWith cfg := by
  ext1
  case mem => exact ite_self []
  all_goals rfl

/-- Settles O44: one equation of states for every parameter value; B and the zero bytes are read off the reset state. -/
theorem resetStateIsResetOfPowerOn : Obligations.ResetStateIsResetOfPowerOn :=
  ⟨fun cfg => ⟨hostReset_powerOn cfg, rfl, fun _ => rfl⟩, rfl⟩

/-- Of the state a write to SP writes SP only. -/
theorem setSp_restored (w : Word) (s : State) : { s.setSp w with sLow := s.sLow, spHigh := s.spHigh } = s := by
  unfold State.setSp
  split <;> rfl

/-- Settles O45: a preload is its register write; that of SP stores what a write to SP stores. -/
theorem preloadWritesOneRegister : Obligations.PreloadWritesOneRegister := by
  intro s hs
  have hpreload := preload_idle hs
  refine ⟨fun w => hpreload (.pc w), fun w => ⟨s.setSp w, hpreload (.sp w), ?_, setSp_restored w s,
      setSp_spHigh_of_wrap w, sp_setSp_of_not_wrap s w⟩,
    fun r => ⟨hpreload (.a r), hpreload (.x r), hpreload (.y r)⟩,
    fun f => ⟨hpreload (.c f), hpreload (.z f), hpreload (.i f), hpreload (.d f), hpreload (.b f), hpreload (.v f),
      hpreload (.n f)⟩⟩
  rw [setSp_sLow, lo_toNat]

end Sys2Proof.Machine
